-- ==== Sys2Proof/Word.lean ====
section
/-! DEFINITION. The plain words and closed enumerations of the spec: bytes, 64-bit words, the
eighteen value kinds, stack values, the command record of the port, the opcode rows of the bytecode
and the seventeen named opcodes. -/

namespace Sys2Proof

/-- A byte is 8 bits (00_scope.md R7). -/
abbrev Byte := BitVec 8

/-- A 64-bit word: `PC`, a cursor, a count, a payload (`PCW` = 64, 00_scope.md R8, D2). -/
abbrev Word := BitVec 64

/-- The closed set of value kinds (42_value_types.md R190, 30_encoding.md R89): ten numeric kinds
and eight reserved tags with no behaviour. -/
inductive Kind where
  | uint8 | uint16 | uint32 | uint64
  | int8 | int16 | int32 | int64
  | float32 | float64
  | boolean | string | list | map | struct | class_ | function | method
  deriving DecidableEq, Repr

/-- What the 5-bit tag field of the port can say: one of the eighteen kinds, or one of the numbers
18..31 that are no kind (30_encoding.md R89, 42_value_types.md R225). -/
inductive KindTag where
  | kind (k : Kind)
  | unassigned (n : BitVec 5)
  deriving DecidableEq, Repr

/-- The three canonical kinds, the only ones a stack value can have (42_value_types.md R195). -/
inductive CanonicalKind where
  | uint64 | int64 | float64
  deriving DecidableEq, Repr

/-- A StackValue: a canonical kind with its 64-bit payload (10_state.md R27). -/
structure StackValue where
  kind : CanonicalKind
  payload : Word
  deriving DecidableEq, Repr

/-- The eight byte lanes of the port, lane 0 first (30_encoding.md R97). -/
structure Lanes where
  l0 : Byte := 0
  l1 : Byte := 0
  l2 : Byte := 0
  l3 : Byte := 0
  l4 : Byte := 0
  l5 : Byte := 0
  l6 : Byte := 0
  l7 : Byte := 0
  deriving DecidableEq, Repr

/-- A command as the port carries it (30_encoding.md R95), with the buffer a `Construct` binds
(R98: its form is the model's, log 12). -/
structure CommandRecord where
  cmd : BitVec 6
  a : Word := 0
  b : Word := 0
  kindA : BitVec 5 := 0
  kindT : BitVec 5 := 0
  lanes : Lanes := {}
  buffer : List Byte := []
  deriving DecidableEq, Repr

/-- An opcode byte as its row of the opcode map reads it (30_encoding.md R87): `NoOp`, or one of the
eight rows that cover 0x01..0xFF, with the row's free low bits. -/
inductive Opcode where
  | noOp
  | undefined80FF (low : BitVec 7)
  | undefined407F (low : BitVec 6)
  | undefined203F (low : BitVec 5)
  | undefined101F (low : BitVec 4)
  | undefined080F (low : BitVec 3)
  | undefined0407 (low : BitVec 2)
  | undefined0203 (low : BitVec 1)
  | undefined0101
  deriving DecidableEq, Repr

/-- The seventeen opcodes the source names but gives neither a number nor a handler
(30_encoding.md R86, 44_opcodes.md R272). -/
inductive NamedOpcode where
  | push | dupe | pop | swap | reverse | length
  | add | sub | mul | div | fdiv | mod | divmod
  | and | or | xor | not
  deriving DecidableEq, Repr

end Sys2Proof
end

