-- ==== Sys2Proof/Config.lean ====
section
/-! DEFINITION. What the spec leaves open, as constants with no body (free values), and the one
parameter to which the spec gives a value. -/

namespace Sys2Proof

/-- The two values of the parameter `ZERO_FETCH_OOB` (00_scope.md R8). -/
inductive ZeroFetchOob where
  | fail
  | succeed
  deriving DecidableEq, Repr

/-- `ZERO_FETCH_OOB`: what `FetchN` with `count = 0` does when the cursor is outside `0..L`. The
spec's value is `fail` (00_scope.md R8, D7; log 8). -/
def Config.zeroFetchOob : ZeroFetchOob := .fail

/-- `NAN_CONV`: raw bits a NaN result is made from, one draw per conversion
(42_value_types.md R193, D14; log 6). -/
opaque Config.nanConv : Nat → Word

/-- `F2I_NONFINITE(f, T)`: the integer a NaN or an infinity converts to, a total function of the
operand's bits and the target alone (42_value_types.md R223, D15; log 7). -/
opaque Config.f2iNonfinite : Word → Kind → Word

/-- How many bytes the sink says it took, where the environment has fixed no answer
(20_memory.md R60; log 5). -/
opaque Config.sinkCount : Nat → Nat

/-- The sink's error token or none, where the environment has fixed no answer
(20_memory.md R60; log 5). -/
opaque Config.sinkError : Nat → Option Word

/-- `MACHINE_REF` after a reset: unspecified (10_state.md R34, U14; log 3). -/
opaque Config.machineRefAfterReset : Nat → Word

/-- `STACK_DEPTH`: the capacity of the value stack, `none` for a stack without one. The spec leaves it
open, and no rule reads it (00_scope.md R8, 10_state.md R27, D18, U15; log 22). -/
opaque Config.stackDepth : Option Nat

/-- `OPID`: one less than the identifier byte of a named opcode. `NoOp` is 0x00 in a closed
enumeration, so the others are not 0x00; nothing else is known (30_encoding.md R86, D6; log 18). -/
opaque Config.opidPred : NamedOpcode → Fin 255

end Sys2Proof
end

