-- ==== Sys2Proof/Syntax.lean ====
section
/-! DEFINITION. The instructions: one constructor for each row of spec/opcode_table.json, the nine
bytecode rows first and then the thirty-eight commands of the port. -/

namespace Sys2Proof

/-- One constructor per row of the opcode table. A bytecode row carries the opcode byte's free bits;
a command carries the operands 30_encoding.md R95 gives it. -/
inductive Instr where
  /-- 0x00 (44_opcodes.md R270). -/
  | noOp
  /-- 0x80..0xFF, no handler (44_opcodes.md R271); so are the next seven rows. -/
  | undefined80FF (low : BitVec 7)
  | undefined407F (low : BitVec 6)
  | undefined203F (low : BitVec 5)
  | undefined101F (low : BitVec 4)
  | undefined080F (low : BitVec 3)
  | undefined0407 (low : BitVec 2)
  | undefined0203 (low : BitVec 1)
  | undefined0101
  /-- The eight unsigned fetches at a cursor (40_unsigned_codec.md R111 to R118). -/
  | fetchU8 (pc : Word)
  | fetchU16 (pc : Word)
  | fetchU24 (pc : Word)
  | fetchU32 (pc : Word)
  | fetchU40 (pc : Word)
  | fetchU48 (pc : Word)
  | fetchU56 (pc : Word)
  | fetchU64 (pc : Word)
  /-- The generic fetch (40_unsigned_codec.md R120). -/
  | fetchN (pc : Word) (count : Word)
  /-- The eight signed fetches at `PC` (41_signed_decoder.md R161 to R168). -/
  | fetchI8
  | fetchI16
  | fetchI24
  | fetchI32
  | fetchI40
  | fetchI48
  | fetchI56
  | fetchI64
  /-- The thread-level dispatchers (41_signed_decoder.md R170, R171). -/
  | fetchSigned (count : Word)
  | fetchUnsigned (count : Word)
  /-- The eight fixed-width writers (40_unsigned_codec.md R131 to R138). -/
  | writeU8 (value : Word)
  | writeU16 (value : Word)
  | writeU24 (value : Word)
  | writeU32 (value : Word)
  | writeU40 (value : Word)
  | writeU48 (value : Word)
  | writeU56 (value : Word)
  | writeU64 (value : Word)
  /-- Minimal-width encoder and selector (40_unsigned_codec.md R140 to R143). -/
  | writeVarInt (value : Word)
  | unsignedByteSize (value : Word)
  | unsignedToBytes (value : Word)
  | unsignedFromBytes (k : Word) (lanes : Lanes)
  /-- The value conversions (42_value_types.md R199, R210, R196). -/
  | upcast (source : KindTag) (payload : Word)
  | downcast (source : KindTag) (payload : Word) (target : KindTag)
  | kindInfo (tag : KindTag)
  /-- The thread (43_thread.md R242, R246, R247, R240). -/
  | step
  | run
  | runFor (n : Word)
  | construct (buffer : List Byte) (pc0 : Word) (ref : Word)
  deriving DecidableEq, Repr

end Sys2Proof
end

