-- ==== Sys2Proof/WellFormed.lean ====
section
/-! DEFINITION. Which instructions an encoding can stand for: a tag that is no kind is one of the
numbers 18..31, and a bound buffer has at most 2^63 - 1 bytes. -/

namespace Sys2Proof

/-- A tag field value: a kind, or a number that is no kind's (30_encoding.md R89). -/
def KindTag.wf : KindTag → Bool
  | .kind _ => true
  | .unassigned n => decide (18 ≤ n.toNat)

/-- The longest buffer: `0 <= L <= 2^63 - 1` (00_scope.md R8). -/
def maxBufferLength : Nat := 2 ^ 63 - 1

/-- The instruction's fields are values its encoding admits. -/
def Instr.wf : Instr → Bool
  | .noOp => true
  | .undefined80FF _ => true
  | .undefined407F _ => true
  | .undefined203F _ => true
  | .undefined101F _ => true
  | .undefined080F _ => true
  | .undefined0407 _ => true
  | .undefined0203 _ => true
  | .undefined0101 => true
  | .fetchU8 _ => true
  | .fetchU16 _ => true
  | .fetchU24 _ => true
  | .fetchU32 _ => true
  | .fetchU40 _ => true
  | .fetchU48 _ => true
  | .fetchU56 _ => true
  | .fetchU64 _ => true
  | .fetchN _ _ => true
  | .fetchI8 => true
  | .fetchI16 => true
  | .fetchI24 => true
  | .fetchI32 => true
  | .fetchI40 => true
  | .fetchI48 => true
  | .fetchI56 => true
  | .fetchI64 => true
  | .fetchSigned _ => true
  | .fetchUnsigned _ => true
  | .writeU8 _ => true
  | .writeU16 _ => true
  | .writeU24 _ => true
  | .writeU32 _ => true
  | .writeU40 _ => true
  | .writeU48 _ => true
  | .writeU56 _ => true
  | .writeU64 _ => true
  | .writeVarInt _ => true
  | .unsignedByteSize _ => true
  | .unsignedToBytes _ => true
  | .unsignedFromBytes _ _ => true
  | .upcast source _ => source.wf
  | .downcast source _ target => source.wf && target.wf
  | .kindInfo tag => tag.wf
  | .step => true
  | .run => true
  | .runFor _ => true
  | .construct buffer _ _ => decide (buffer.length ≤ maxBufferLength)

end Sys2Proof
end

