-- ==== Sys2Proof/Decode.lean ====
section
/-! DEFINITION. The decoder of opcode bytes and of command records, total on both; the encoder,
written from the same tables; and the view of the opcode table the host reads. -/

namespace Sys2Proof

/-- The tag number of a kind (30_encoding.md R89). -/
def Kind.tag : Kind → BitVec 5
  | .uint8 => 0
  | .uint16 => 1
  | .uint32 => 2
  | .uint64 => 3
  | .int8 => 4
  | .int16 => 5
  | .int32 => 6
  | .int64 => 7
  | .float32 => 8
  | .float64 => 9
  | .boolean => 10
  | .string => 11
  | .list => 12
  | .map => 13
  | .struct => 14
  | .class_ => 15
  | .function => 16
  | .method => 17

/-- The 5 bits of a tag field (30_encoding.md R89). -/
def KindTag.bits : KindTag → BitVec 5
  | .kind k => k.tag
  | .unassigned n => n

/-- What a 5-bit tag field says (30_encoding.md R89). -/
def decodeKindTag (n : BitVec 5) : KindTag :=
  match n.toNat with
  | 0 => .kind .uint8
  | 1 => .kind .uint16
  | 2 => .kind .uint32
  | 3 => .kind .uint64
  | 4 => .kind .int8
  | 5 => .kind .int16
  | 6 => .kind .int32
  | 7 => .kind .int64
  | 8 => .kind .float32
  | 9 => .kind .float64
  | 10 => .kind .boolean
  | 11 => .kind .string
  | 12 => .kind .list
  | 13 => .kind .map
  | 14 => .kind .struct
  | 15 => .kind .class_
  | 16 => .kind .function
  | 17 => .kind .method
  | _ => .unassigned n

/-- Decode of an opcode byte, all 8 bits of it: `0x00` is `NoOp`, every other byte falls in the one
row its leading one bit gives (30_encoding.md R81, R87). -/
def decodeOpcode (b : Byte) : Opcode :=
  if b.getLsbD 7 then .undefined80FF (b.extractLsb' 0 7)
  else if b.getLsbD 6 then .undefined407F (b.extractLsb' 0 6)
  else if b.getLsbD 5 then .undefined203F (b.extractLsb' 0 5)
  else if b.getLsbD 4 then .undefined101F (b.extractLsb' 0 4)
  else if b.getLsbD 3 then .undefined080F (b.extractLsb' 0 3)
  else if b.getLsbD 2 then .undefined0407 (b.extractLsb' 0 2)
  else if b.getLsbD 1 then .undefined0203 (b.extractLsb' 0 1)
  else if b.getLsbD 0 then .undefined0101
  else .noOp

/-- The opcode row as an instruction of the table. -/
def Opcode.toInstr : Opcode → Instr
  | .noOp => .noOp
  | .undefined80FF low => .undefined80FF low
  | .undefined407F low => .undefined407F low
  | .undefined203F low => .undefined203F low
  | .undefined101F low => .undefined101F low
  | .undefined080F low => .undefined080F low
  | .undefined0407 low => .undefined0407 low
  | .undefined0203 low => .undefined0203 low
  | .undefined0101 => .undefined0101

/-- Why the decoder rejects a command record: its select code is not in the list of
30_encoding.md R95 (93_implementation_defined.md U12). -/
inductive DecodeError where
  | notACommand (code : BitVec 6)
  deriving DecidableEq, Repr

/-- Decode of a command record by its select code; each command takes the operand fields
30_encoding.md R95 gives it and ignores the others. -/
def decodeCommand (c : CommandRecord) : Except DecodeError Instr :=
  match c.cmd.toNat with
  | 0x01 => .ok (.fetchU8 c.a)
  | 0x02 => .ok (.fetchU16 c.a)
  | 0x03 => .ok (.fetchU24 c.a)
  | 0x04 => .ok (.fetchU32 c.a)
  | 0x05 => .ok (.fetchU40 c.a)
  | 0x06 => .ok (.fetchU48 c.a)
  | 0x07 => .ok (.fetchU56 c.a)
  | 0x08 => .ok (.fetchU64 c.a)
  | 0x09 => .ok (.fetchN c.a c.b)
  | 0x11 => .ok .fetchI8
  | 0x12 => .ok .fetchI16
  | 0x13 => .ok .fetchI24
  | 0x14 => .ok .fetchI32
  | 0x15 => .ok .fetchI40
  | 0x16 => .ok .fetchI48
  | 0x17 => .ok .fetchI56
  | 0x18 => .ok .fetchI64
  | 0x19 => .ok (.fetchSigned c.b)
  | 0x1A => .ok (.fetchUnsigned c.b)
  | 0x21 => .ok (.writeU8 c.a)
  | 0x22 => .ok (.writeU16 c.a)
  | 0x23 => .ok (.writeU24 c.a)
  | 0x24 => .ok (.writeU32 c.a)
  | 0x25 => .ok (.writeU40 c.a)
  | 0x26 => .ok (.writeU48 c.a)
  | 0x27 => .ok (.writeU56 c.a)
  | 0x28 => .ok (.writeU64 c.a)
  | 0x29 => .ok (.writeVarInt c.a)
  | 0x2A => .ok (.unsignedByteSize c.a)
  | 0x2B => .ok (.unsignedToBytes c.a)
  | 0x2C => .ok (.unsignedFromBytes c.b c.lanes)
  | 0x30 => .ok (.upcast (decodeKindTag c.kindA) c.a)
  | 0x31 => .ok (.downcast (decodeKindTag c.kindA) c.a (decodeKindTag c.kindT))
  | 0x32 => .ok (.kindInfo (decodeKindTag c.kindA))
  | 0x38 => .ok .step
  | 0x39 => .ok .run
  | 0x3A => .ok (.runFor c.a)
  | 0x3F => .ok (.construct c.buffer c.a c.b)
  | _ => .error (.notACommand c.cmd)

/-- The two encodings of 30_encoding.md R80: an opcode byte of the bytecode stream, or a command
record of the port. -/
inductive Encoding where
  | opcode (b : Byte)
  | command (c : CommandRecord)
  deriving DecidableEq, Repr

/-- Decode of either encoding. -/
def decode : Encoding → Except DecodeError Instr
  | .opcode b => .ok (decodeOpcode b).toInstr
  | .command c => decodeCommand c

/-- The encoding of an instruction: an opcode row's fixed bits with its free bits below
(30_encoding.md R87), or the command's select code with its operands in the fields R95 gives them
and zero in every other field. -/
def encode : Instr → Encoding
  | .noOp => .opcode 0x00
  | .undefined80FF low => .opcode (0b1#1 ++ low)
  | .undefined407F low => .opcode (0b01#2 ++ low)
  | .undefined203F low => .opcode (0b001#3 ++ low)
  | .undefined101F low => .opcode (0b0001#4 ++ low)
  | .undefined080F low => .opcode (0b00001#5 ++ low)
  | .undefined0407 low => .opcode (0b000001#6 ++ low)
  | .undefined0203 low => .opcode (0b0000001#7 ++ low)
  | .undefined0101 => .opcode 0x01
  | .fetchU8 pc => .command { cmd := 0x01, a := pc }
  | .fetchU16 pc => .command { cmd := 0x02, a := pc }
  | .fetchU24 pc => .command { cmd := 0x03, a := pc }
  | .fetchU32 pc => .command { cmd := 0x04, a := pc }
  | .fetchU40 pc => .command { cmd := 0x05, a := pc }
  | .fetchU48 pc => .command { cmd := 0x06, a := pc }
  | .fetchU56 pc => .command { cmd := 0x07, a := pc }
  | .fetchU64 pc => .command { cmd := 0x08, a := pc }
  | .fetchN pc count => .command { cmd := 0x09, a := pc, b := count }
  | .fetchI8 => .command { cmd := 0x11 }
  | .fetchI16 => .command { cmd := 0x12 }
  | .fetchI24 => .command { cmd := 0x13 }
  | .fetchI32 => .command { cmd := 0x14 }
  | .fetchI40 => .command { cmd := 0x15 }
  | .fetchI48 => .command { cmd := 0x16 }
  | .fetchI56 => .command { cmd := 0x17 }
  | .fetchI64 => .command { cmd := 0x18 }
  | .fetchSigned count => .command { cmd := 0x19, b := count }
  | .fetchUnsigned count => .command { cmd := 0x1A, b := count }
  | .writeU8 value => .command { cmd := 0x21, a := value }
  | .writeU16 value => .command { cmd := 0x22, a := value }
  | .writeU24 value => .command { cmd := 0x23, a := value }
  | .writeU32 value => .command { cmd := 0x24, a := value }
  | .writeU40 value => .command { cmd := 0x25, a := value }
  | .writeU48 value => .command { cmd := 0x26, a := value }
  | .writeU56 value => .command { cmd := 0x27, a := value }
  | .writeU64 value => .command { cmd := 0x28, a := value }
  | .writeVarInt value => .command { cmd := 0x29, a := value }
  | .unsignedByteSize value => .command { cmd := 0x2A, a := value }
  | .unsignedToBytes value => .command { cmd := 0x2B, a := value }
  | .unsignedFromBytes k lanes => .command { cmd := 0x2C, b := k, lanes := lanes }
  | .upcast source payload => .command { cmd := 0x30, a := payload, kindA := source.bits }
  | .downcast source payload target =>
    .command { cmd := 0x31, a := payload, kindA := source.bits, kindT := target.bits }
  | .kindInfo tag => .command { cmd := 0x32, kindA := tag.bits }
  | .step => .command { cmd := 0x38 }
  | .run => .command { cmd := 0x39 }
  | .runFor n => .command { cmd := 0x3A, a := n }
  | .construct buffer pc0 ref => .command { cmd := 0x3F, a := pc0, b := ref, buffer := buffer }

/-- The encoding a word of the opcode table stands for (log 16). The table numbers the command
select codes and the opcode bytes alike from bit 0, so a word that R95 lists as a select code is
read as a command whose other fields are zero, and any other byte as an opcode byte. A row of fewer
than 8 bits can only be a select code. -/
def tableEncoding (nbits w : Nat) : Encoding :=
  let c : CommandRecord := { cmd := BitVec.ofNat 6 w }
  if nbits < 8 then .command c
  else if w < 64 then
    match decodeCommand c with
    | .ok _ => .command c
    | .error _ => .opcode (BitVec.ofNat 8 w)
  else .opcode (BitVec.ofNat 8 w)

/-- What the decoder reads from a word of the opcode table. -/
def decodeTableWord (nbits w : Nat) : Option Instr :=
  (decode (tableEncoding nbits w)).toOption

end Sys2Proof
end

