-- ==== Sys2Proof/Machine/State.lean ====
section
/-! DEFINITION. The state of the unit, its inputs and its response port, the error values, the
reasons to stop, and the state after reset. Plain data throughout. -/

namespace Sys2Proof.Machine

/-- The bytes of the buffer at their indices, in canonical form: indices strictly rising, no entry
equal to what an unlisted index reads as (log 13). -/
abbrev Memory := List Host.Cell

/-- The eight error kinds of 60_exceptions.md R300, values a command returns; compared by structure
(R309). -/
inductive ErrorKind where
  | notEnoughBytes (requested : Word)
  | fetchOverflow
  | fetchUnderflow
  | invalidImmediateSize (requested : Word)
  | bytecodeOverflow
  | operationUndefined
  | castError (source : Kind) (target : KindTag)
  | sinkError (token : Word)
  deriving DecidableEq, Repr

/-- The response record of the port (30_encoding.md R95, R96); a field a command does not use is
zero. -/
structure Response where
  status : BitVec 4 := 0
  infoA : Word := 0
  infoB : Word := 0
  res : Word := 0
  res2 : Word := 0
  rkind : BitVec 5 := 0
  lanes : Lanes := {}
  deriving DecidableEq, Repr

/-- The sink's answer to one transaction: how many bytes it took and an optional opaque error token
(20_memory.md R60). -/
structure SinkAnswer where
  count : Nat
  error : Option Word
  deriving DecidableEq, Repr

/-- What the host does at the unit's inputs: it issues a command, or it resets the unit
(00_scope.md R9, 70_reset_and_hazards.md R340). -/
inductive Input where
  | command (c : CommandRecord)
  | reset
  deriving DecidableEq, Repr

/-- The machine's one stop that is no refusal. The spec leaves nothing stuck
(93_implementation_defined.md, end of section 1), and every command tests its bounds first. -/
inductive Fault where
  /-- Raised by a fetch whose bounds test passed and whose read still met an index outside
  `0..L-1`, which 10_state.md R29 calls not addressable. No command reaches it. Safe: the model
  stops where the spec gives no read. -/
  | notAddressable (cursor : Int) (n : Nat)
  deriving DecidableEq, Repr

/-- Why an instruction has no meaning: operands outside the domain the spec gives any
(00_scope.md R11). Each is safe: the model stops where the spec says a model gives no meaning. -/
inductive Refusal where
  /-- Raised by an arm of `exec` that has no meaning yet; no arm is. Safe. -/
  | notModelled (mnemonic : String)
  /-- Raised by the step on a select code 30_encoding.md R95 does not list (U12). Safe. -/
  | notACommand (code : BitVec 6)
  /-- Raised by `UnsignedFromBytes` for `k = 0` or `k > 8` (40_unsigned_codec.md R143, U7). Safe. -/
  | byteSequenceLength (k : Word)
  /-- Raised by `Upcast` of a reserved kind or a tag 18..31 (42_value_types.md R199, U9). Safe. -/
  | upcastOperand (source : KindTag)
  /-- Raised by `Downcast` of a source that is no StackValue (42_value_types.md R227, U8). Safe. -/
  | downcastOperand (source : KindTag)
  /-- Raised by `KindInfo` of a reserved kind or a tag 18..31 (42_value_types.md R196, U9). Safe. -/
  | kindInfoOperand (tag : KindTag)
  /-- Raised by `Construct` for a buffer of more than 2^63 - 1 bytes (00_scope.md R8; log 12). Safe. -/
  | bufferTooLong (length : Nat)
  deriving DecidableEq, Repr

/-- The whole state. -/
structure State where
  /-- `PC`, 64 bits, signed (10_state.md R21). -/
  pc : Word
  /-- `STACK`, bottom first (10_state.md R27). -/
  stack : List StackValue
  /-- `BUF` (10_state.md R29). -/
  buf : Memory
  /-- `LEN`, the length `L` of `BUF` (10_state.md R26). -/
  len : Word
  /-- `MACHINE_REF` (10_state.md R33). -/
  machineRef : Word
  /-- `SINK`, what the sink has taken (10_state.md R31). -/
  sink : List Byte
  /-- The response of the last command (30_encoding.md R95; log 2). -/
  response : Response
  /-- What the host does next, in order (log 1). -/
  port : List Input
  /-- The sink's next answers, as far as the environment has fixed them (log 5). -/
  sinkAnswers : List SinkAnswer
  /-- The model's own counter, the argument of the free values (log 21). -/
  draws : Nat
  deriving DecidableEq, Repr

/-- The machine right after reset (10_state.md R34, 70_reset_and_hazards.md R340): a thread
constructed on the empty buffer at `PC = 0`. `MACHINE_REF`, `SINK`, the response and the inputs have
no value in the spec; theirs are in logs 1 to 5 and 21. -/
def State.reset : State where
  pc := 0
  stack := []
  buf := []
  len := 0
  machineRef := 0
  sink := []
  response := {}
  port := []
  sinkAnswers := []
  draws := 0

end Sys2Proof.Machine
end

