-- ==== Sys2Proof/Machine/Flags.lean ====
section
/-! DEFINITION. The hardware has no flags and no condition codes (10_state.md R25). What a command
reports besides its results is the status of its response; this file holds the status codes and the
responses of the error values. -/

namespace Sys2Proof.Machine

/-- The outcome of a meaning. -/
abbrev Result := Host.Outcome State Fault Refusal

/-- Status codes; 0 is success (30_encoding.md R96). -/
def ErrorKind.status : ErrorKind → BitVec 4
  | .notEnoughBytes _ => 1
  | .fetchOverflow => 2
  | .fetchUnderflow => 3
  | .invalidImmediateSize _ => 4
  | .bytecodeOverflow => 5
  | .operationUndefined => 6
  | .castError _ _ => 7
  | .sinkError _ => 8

/-- The field of the error on `info_a` (30_encoding.md R96). -/
def ErrorKind.infoA : ErrorKind → Word
  | .notEnoughBytes requested => requested
  | .fetchOverflow => 0
  | .fetchUnderflow => 0
  | .invalidImmediateSize requested => requested
  | .bytecodeOverflow => 0
  | .operationUndefined => 0
  | .castError source _ => source.tag.setWidth 64
  | .sinkError token => token

/-- The field of the error on `info_b` (30_encoding.md R96). -/
def ErrorKind.infoB : ErrorKind → Word
  | .castError _ target => target.bits.setWidth 64
  | _ => 0

/-- The response of a command that ends in an error value; its result fields are zero
(30_encoding.md R95, R96). -/
def errorResponse (e : ErrorKind) : Response :=
  { status := e.status, infoA := e.infoA, infoB := e.infoB }

/-- The response of a success without results. -/
def okResponse : Response := {}

/-- The response of a write: `res2` holds the bytes written, on success and with `SinkError`
(20_memory.md R60, 30_encoding.md R96). -/
def writeResponse (written : Nat) : Option Word → Response
  | none => { okResponse with res2 := BitVec.ofNat 64 written }
  | some token => { errorResponse (.sinkError token) with res2 := BitVec.ofNat 64 written }

end Sys2Proof.Machine
end

