-- ==== Sys2Proof/Machine/Operands.lean ====
section
/-! DEFINITION. Operand forms: families, sizes and canonical kinds; payloads of a width, unsigned,
signed and wrapped; byte lanes; big-endian assembly and disassembly. -/

namespace Sys2Proof.Machine

/-- The family of a kind (30_encoding.md R89, the family column). -/
inductive Family where
  | unsigned | signed | float | reserved
  deriving DecidableEq, Repr

/-- The family column of 30_encoding.md R89. -/
def kindFamily : Kind → Family
  | .uint8 => .unsigned
  | .uint16 => .unsigned
  | .uint32 => .unsigned
  | .uint64 => .unsigned
  | .int8 => .signed
  | .int16 => .signed
  | .int32 => .signed
  | .int64 => .signed
  | .float32 => .float
  | .float64 => .float
  | .boolean => .reserved
  | .string => .reserved
  | .list => .reserved
  | .map => .reserved
  | .struct => .reserved
  | .class_ => .reserved
  | .function => .reserved
  | .method => .reserved

/-- The byte size `S(K)`; a reserved kind has none (42_value_types.md R196). -/
def kindByteSize : Kind → Option Nat
  | .uint8 => some 1
  | .uint16 => some 2
  | .uint32 => some 4
  | .uint64 => some 8
  | .int8 => some 1
  | .int16 => some 2
  | .int32 => some 4
  | .int64 => some 8
  | .float32 => some 4
  | .float64 => some 8
  | .boolean => none
  | .string => none
  | .list => none
  | .map => none
  | .struct => none
  | .class_ => none
  | .function => none
  | .method => none

/-- The payload bits `8s` of a kind of byte size `s` (30_encoding.md R90); 0 for a reserved kind. -/
def kindBits (k : Kind) : Nat := 8 * (kindByteSize k).getD 0

/-- The canonical kind as a kind (42_value_types.md R195). -/
def canonicalKind : CanonicalKind → Kind
  | .uint64 => .uint64
  | .int64 => .int64
  | .float64 => .float64

/-- `zext_64(p[n-1:0])`: an unsigned payload; the bits above are ignored on input and zero on output
(30_encoding.md R90, 00_scope.md R13). -/
def zeroExtended (n : Nat) (p : Word) : Word := (p.setWidth n).setWidth 64

/-- `sext_64(p[n-1:0])` (00_scope.md R13). -/
def signExtended (n : Nat) (p : Word) : Word := (p.setWidth n).signExtend 64

/-- The `n`-bit payload of `x mod 2^n`, that is of `wrapU_n(x)` and of `wrapS_n(x)`, which have the
same bits (00_scope.md R13). -/
def wrapPayload (n : Nat) (x : Int) : Word := (BitVec.ofInt n x).setWidth 64

/-- The lanes as a sequence, lane 0 first (30_encoding.md R97). -/
def lanesToList (l : Lanes) : List Byte := [l.l0, l.l1, l.l2, l.l3, l.l4, l.l5, l.l6, l.l7]

/-- A sequence on the lanes, the unused ones zero (30_encoding.md R95, R97). -/
def lanesOfList (bs : List Byte) : Lanes where
  l0 := bs.getD 0 0
  l1 := bs.getD 1 0
  l2 := bs.getD 2 0
  l3 := bs.getD 3 0
  l4 := bs.getD 4 0
  l5 := bs.getD 5 0
  l6 := bs.getD 6 0
  l7 := bs.getD 7 0

/-- Big-endian assembly, `acc <- acc * 2^8 + byte` from the first byte on (40_unsigned_codec.md
R120, R143; 20_memory.md R50). -/
def assembleBytes (bs : List Byte) : Nat := bs.foldl (fun acc b => acc * 256 + b.toNat) 0

/-- Big-endian disassembly: `value[8k-1:8k-8], ..., value[7:0]` (40_unsigned_codec.md R130). -/
def bytesOf (value : Word) : Nat → List Byte
  | 0 => []
  | k + 1 => value.extractLsb' (8 * k) 8 :: bytesOf value k

/-- `bit_length(v)` (00_scope.md R12). -/
def bitLength (v : Nat) : Nat := if v = 0 then 0 else v.log2 + 1

/-- The minimal byte count (40_unsigned_codec.md R141). -/
def byteSizeOf (value : Word) : Nat :=
  if value = 0 then 1 else (bitLength value.toNat + 7) / 8

end Sys2Proof.Machine
end

