-- ==== Sys2Proof/Machine/Ops.lean ====
section
/-! DEFINITION. The named operations over the buffer, the sink and the thread's registers: the byte
at an index, the bounds test, the fetch of n bytes, the sink transaction, error values, reset, the
register views, and the inputs. -/

namespace Sys2Proof.Machine

/-! ### The buffer -/

/-- What an index with no entry reads as: a choice of representation only, since the host gives
every byte of a buffer it binds (log 13). -/
def unlistedByte : Byte := 0

/-- The byte at an index. -/
def Memory.byteAt : Memory → Nat → Byte
  | [], _ => unlistedByte
  | (a, b) :: m, i => if a = i then b else Memory.byteAt m i

/-- The memory with no entry for an index. -/
def Memory.erase : Memory → Nat → Memory
  | [], _ => []
  | (a, b) :: m, i => if a = i then m else (a, b) :: Memory.erase m i

/-- The memory with an entry at an index it does not list, in rising order. -/
def Memory.insert : Memory → Nat → Byte → Memory
  | [], i, v => [(i, v)]
  | (a, b) :: m, i, v => if i < a then (i, v) :: (a, b) :: m else (a, b) :: Memory.insert m i v

/-- A byte stored at an index; storing what an unlisted index reads as leaves no entry. No command
of the unit stores to the buffer (20_memory.md R61): this is how a host lays a byte into one. -/
def Memory.write (m : Memory) (i : Nat) (v : Byte) : Memory :=
  if v = unlistedByte then Memory.erase m i else Memory.insert (Memory.erase m i) i v

/-- The byte sequence laid out from index `i` on. -/
def Memory.ofBytesFrom (i : Nat) : List Byte → Memory
  | [] => []
  | v :: vs => if v = unlistedByte then Memory.ofBytesFrom (i + 1) vs else (i, v) :: Memory.ofBytesFrom (i + 1) vs

/-- A buffer as the host binds it, its first byte at index 0 (10_state.md R29). -/
def Memory.ofBytes (bs : List Byte) : Memory := Memory.ofBytesFrom 0 bs

/-- The canonical form from a lower bound on: indices strictly rising, no entry that reads as an
unlisted index does. -/
def Memory.wfFrom (low : Nat) : Memory → Bool
  | [] => true
  | (a, b) :: m => decide (low ≤ a) && decide (b ≠ unlistedByte) && Memory.wfFrom (a + 1) m

/-- The canonical form. -/
def Memory.wf (m : Memory) : Bool := Memory.wfFrom 0 m

/-- Every entry lies below a bound. -/
def Memory.below (bound : Nat) (m : Memory) : Bool := m.all (fun c => decide (c.1 < bound))

/-- `L`, the length of the bound buffer, as a number. -/
def State.length (s : State) : Nat := s.len.toNat

/-- `InBounds(addr, n) := (0 <= addr) and (addr + n <= L)`, on mathematical integers
(00_scope.md R14, 10_state.md R24). -/
def State.inBounds (s : State) (addr : Int) (n : Nat) : Bool :=
  decide (0 ≤ addr) && decide (addr + n ≤ s.length)

/-- The byte at an index of the buffer; every index outside `0..L-1` is not addressable
(10_state.md R29). -/
def State.readByte (s : State) (addr : Int) : Option Byte :=
  if 0 ≤ addr ∧ addr < s.length then some (s.buf.byteAt addr.toNat) else none

/-- `n` bytes from an index on, the lowest index first. -/
def State.readBytes (s : State) (addr : Int) : Nat → Option (List Byte)
  | 0 => some []
  | n + 1 =>
    match s.readByte addr, State.readBytes s (addr + 1) n with
    | some b, some bs => some (b :: bs)
    | _, _ => none

/-- `MemRead(addr, n)`: the big-endian number at an index (00_scope.md R14, 20_memory.md R50). -/
def State.memRead (s : State) (addr : Int) (n : Nat) : Option Nat :=
  (s.readBytes addr n).map assembleBytes

/-! ### Registers and the response -/

/-- `PC <- v` (10_state.md R23). -/
def State.setPc (s : State) (pc : Word) : State := { s with pc := pc }

/-- The response of the command is given (30_encoding.md R95). -/
def State.respond (s : State) (r : Response) : State := { s with response := r }

/-- Ending a command with an error value: the only exception entry there is. It saves nothing,
changes no mode and goes nowhere; the response carries the error, and what the command wrote before
stays written (60_exceptions.md R310, R313; 00_scope.md R14 `raise`). There is no return from it:
the next command simply runs (R315). -/
def State.raise (s : State) (e : ErrorKind) : State := s.respond (errorResponse e)

/-- Ending a pure fetch with an error value: the cursor is returned unchanged, on `res2` where a
success returns the new cursor (40_unsigned_codec.md R110, R120; log 11). -/
def State.raiseAt (s : State) (cursor : Word) (e : ErrorKind) : State :=
  s.respond { errorResponse e with res2 := cursor }

/-- One free value is used up (log 21). -/
def State.draw (s : State) : State := { s with draws := s.draws + 1 }

/-- A `Step` or a part of one: the state it leaves and the error it returns, if any. -/
abbrev StepResult := State × Option ErrorKind

/-- The response of a `Step`, `Run` or `RunFor` is given: success without results, or the error. -/
def StepResult.finish (r : StepResult) : Result :=
  match r.2 with
  | none => .next (r.1.respond okResponse)
  | some e => .next (r.1.raise e)

/-- A value of a kind is returned: `rkind` and `res` (30_encoding.md R90, R95). -/
def State.returnValue (s : State) (k : Kind) (payload : Word) : Result :=
  .next (s.respond { okResponse with rkind := k.tag, res := payload })

/-- The registers the host can read between commands (10_state.md R26). -/
inductive HostRegister where
  | pc | len | depth | machineRef
  deriving DecidableEq, Repr

/-- The host's view of a register; reading has no effect (10_state.md R26). -/
def State.readRegister (s : State) : HostRegister → Word
  | .pc => s.pc
  | .len => s.len
  | .depth => BitVec.ofNat 64 s.stack.length
  | .machineRef => s.machineRef

/-! ### Fetches -/

/-- A fetch of `n` bytes at a cursor: out of bounds it reads no byte and goes to `short`, in bounds
it goes on with the big-endian number (20_memory.md R54, 40_unsigned_codec.md R110). -/
def State.fetch (s : State) (cursor : Word) (n : Nat) (short : Result) (use : Nat → Result) : Result :=
  if s.inBounds cursor.toInt n then
    match s.memRead cursor.toInt n with
    | some u => use u
    | none => .fault (.notAddressable cursor.toInt n)
  else short

/-! ### The sink -/

/-- The sink's answer to the next transaction: the environment's, or a free value (log 5). -/
def State.sinkAnswer (s : State) : SinkAnswer :=
  match s.sinkAnswers with
  | a :: _ => a
  | [] => { count := Config.sinkCount s.draws, error := Config.sinkError s.draws }

/-- The answer is used up. -/
def State.takeSinkAnswer (s : State) : State :=
  match s.sinkAnswers with
  | _ :: rest => { s with sinkAnswers := rest }
  | [] => s.draw

/-- How many of `n` bytes the sink takes: `0 <= m <= n` (20_memory.md R60). -/
def State.sinkTakes (s : State) (n : Nat) : Nat := min s.sinkAnswer.count n

/-- `SinkWrite(n, v)`: one transaction of `n` bytes, most significant first; the sink takes the first
`m` of them and answers `(m, e)`, which the command returns unchanged (20_memory.md R60,
40_unsigned_codec.md R130). -/
def State.sinkWrite (s : State) (n : Nat) (v : Word) : State :=
  let t := s.takeSinkAnswer
  { t with
    sink := s.sink ++ (bytesOf v n).take (s.sinkTakes n)
    response := writeResponse (s.sinkTakes n) s.sinkAnswer.error }

/-! ### Reset -/

/-- A reset during a run: the values of `State.reset`, with the sink, its answers and the
host's further inputs left as they are, and `MACHINE_REF` a free value, which is then used up
(10_state.md R34, 70_reset_and_hazards.md R340; logs 2, 3 and 26). -/
def State.hardReset (s : State) : State :=
  { State.reset with
    machineRef := Config.machineRefAfterReset s.draws
    sink := s.sink
    port := s.port
    sinkAnswers := s.sinkAnswers
    draws := s.draws + 1 }

/-! ### Inputs -/

/-- The host's first input is taken from the port. -/
def State.takeInput (s : State) : State := { s with port := s.port.tail }

/-- The host issues a command next. -/
def State.issue (s : State) (c : CommandRecord) : State :=
  { s with port := .command c :: s.port }

/-- An opcode byte laid into the buffer at `PC`, the buffer long enough to hold it; a `PC` that can
index no buffer is 0 first (log 17). -/
def State.withOpcodeAtPc (s : State) (op : Byte) : State :=
  let pc : Word := if s.pc.toNat < maxBufferLength then s.pc else 0
  { s with
    pc := pc
    buf := s.buf.write pc.toNat op
    len := BitVec.ofNat 64 (max s.len.toNat (pc.toNat + 1)) }

end Sys2Proof.Machine
end

