-- ==== Sys2Proof/Machine/Codec.lean ====
section
/-! DEFINITION. The immediate codec (40_unsigned_codec.md): unsigned fetches at a cursor, the generic
fetch, the writers, the minimal-width encoder and selector. Pure with respect to the thread: none
reads or writes `PC` or `STACK`. -/

namespace Sys2Proof.Machine

/-! ### Fixed-width unsigned fetch -/

/-- The common contract of the eight `FetchU` commands, `k` bytes at a cursor
(40_unsigned_codec.md R110). -/
def State.fetchUnsignedAt (s : State) (pc : Word) (k : Nat) : Result :=
  s.fetch pc k (.next (s.raiseAt pc (.notEnoughBytes (BitVec.ofNat 64 k)))) fun u =>
    .next (s.respond { okResponse with res := BitVec.ofNat 64 u, res2 := pc + BitVec.ofNat 64 k })

/-- `FetchU8` (40_unsigned_codec.md R111). -/
def execFetchU8 (pc : Word) (s : State) : Result := s.fetchUnsignedAt pc 1

/-- `FetchU16` (40_unsigned_codec.md R112). -/
def execFetchU16 (pc : Word) (s : State) : Result := s.fetchUnsignedAt pc 2

/-- `FetchU24` (40_unsigned_codec.md R113). -/
def execFetchU24 (pc : Word) (s : State) : Result := s.fetchUnsignedAt pc 3

/-- `FetchU32` (40_unsigned_codec.md R114). -/
def execFetchU32 (pc : Word) (s : State) : Result := s.fetchUnsignedAt pc 4

/-- `FetchU40` (40_unsigned_codec.md R115). -/
def execFetchU40 (pc : Word) (s : State) : Result := s.fetchUnsignedAt pc 5

/-- `FetchU48` (40_unsigned_codec.md R116). -/
def execFetchU48 (pc : Word) (s : State) : Result := s.fetchUnsignedAt pc 6

/-- `FetchU56` (40_unsigned_codec.md R117). -/
def execFetchU56 (pc : Word) (s : State) : Result := s.fetchUnsignedAt pc 7

/-- `FetchU64` (40_unsigned_codec.md R118). -/
def execFetchU64 (pc : Word) (s : State) : Result := s.fetchUnsignedAt pc 8

/-- `FetchN`: the count errors first, then a zero count, then the bounds
(40_unsigned_codec.md R120, 60_exceptions.md R312). -/
def execFetchN (pc count : Word) (s : State) : Result :=
  if count.toInt < 0 then .next (s.raiseAt pc .fetchUnderflow)
  else if 8 < count.toInt then .next (s.raiseAt pc .fetchOverflow)
  else if count.toInt = 0 then
    if s.inBounds pc.toInt 0 ∨ Config.zeroFetchOob = .succeed then
      .next (s.respond { okResponse with res := 0, res2 := pc })
    else .next (s.raiseAt pc (.notEnoughBytes 0))
  else
    s.fetch pc count.toNat (.next (s.raiseAt pc (.notEnoughBytes count))) fun u =>
      .next (s.respond { okResponse with res := BitVec.ofNat 64 u, res2 := pc + count })

/-! ### Fixed-width writers -/

/-- `WriteU8` (40_unsigned_codec.md R131). -/
def execWriteU8 (value : Word) (s : State) : Result := .next (s.sinkWrite 1 value)

/-- `WriteU16` (40_unsigned_codec.md R132). -/
def execWriteU16 (value : Word) (s : State) : Result := .next (s.sinkWrite 2 value)

/-- `WriteU24` (40_unsigned_codec.md R133). -/
def execWriteU24 (value : Word) (s : State) : Result := .next (s.sinkWrite 3 value)

/-- `WriteU32` (40_unsigned_codec.md R134). -/
def execWriteU32 (value : Word) (s : State) : Result := .next (s.sinkWrite 4 value)

/-- `WriteU40` (40_unsigned_codec.md R135). -/
def execWriteU40 (value : Word) (s : State) : Result := .next (s.sinkWrite 5 value)

/-- `WriteU48` (40_unsigned_codec.md R136). -/
def execWriteU48 (value : Word) (s : State) : Result := .next (s.sinkWrite 6 value)

/-- `WriteU56` (40_unsigned_codec.md R137). -/
def execWriteU56 (value : Word) (s : State) : Result := .next (s.sinkWrite 7 value)

/-- `WriteU64` (40_unsigned_codec.md R138). -/
def execWriteU64 (value : Word) (s : State) : Result := .next (s.sinkWrite 8 value)

/-! ### Minimal width -/

/-- The width selector of `WriteVarInt`, the thresholds inclusive (40_unsigned_codec.md R140,
30_encoding.md R85). -/
def varIntWidth (value : Word) : Nat :=
  if value.toNat ≤ 0xFF then 1
  else if value.toNat ≤ 0xFFFF then 2
  else if value.toNat ≤ 0xFFFFFF then 3
  else if value.toNat ≤ 0xFFFFFFFF then 4
  else if value.toNat ≤ 0xFFFFFFFFFF then 5
  else if value.toNat ≤ 0xFFFFFFFFFFFF then 6
  else if value.toNat ≤ 0xFFFFFFFFFFFFFF then 7
  else 8

/-- `WriteVarInt` (40_unsigned_codec.md R140). -/
def execWriteVarInt (value : Word) (s : State) : Result :=
  .next (s.sinkWrite (varIntWidth value) value)

/-- `UnsignedByteSize` (40_unsigned_codec.md R141). -/
def execUnsignedByteSize (value : Word) (s : State) : Result :=
  .next (s.respond { okResponse with res := BitVec.ofNat 64 (byteSizeOf value) })

/-- `UnsignedToBytes` (40_unsigned_codec.md R142). -/
def execUnsignedToBytes (value : Word) (s : State) : Result :=
  .next (s.respond { okResponse with
    res2 := BitVec.ofNat 64 (byteSizeOf value)
    lanes := lanesOfList (bytesOf value (byteSizeOf value)) })

/-- `UnsignedFromBytes`: no meaning for `k = 0` and `k > 8` (40_unsigned_codec.md R143,
93_implementation_defined.md U7). -/
def execUnsignedFromBytes (k : Word) (lanes : Lanes) (s : State) : Result :=
  if 1 ≤ k.toNat ∧ k.toNat ≤ 8 then
    .next (s.respond { okResponse with
      res := BitVec.ofNat 64 (assembleBytes ((lanesToList lanes).take k.toNat)) })
  else .refused (.byteSequenceLength k)

end Sys2Proof.Machine
end

