-- ==== Sys2Proof/Machine/Contracts.lean ====
section
/-! DEFINITION. The stack-effect contracts of the seventeen named opcodes (44_opcodes.md R273, R276 to
R292): relations that a future handler has to satisfy. Nothing executes them (R272): whatever byte
`OPID` gives a named opcode is one of the undefined rows. -/

namespace Sys2Proof.Machine

/-- The identifier byte `OPID` gives a named opcode: not 0x00, which is `NoOp`'s
(30_encoding.md R86; log 18). -/
def opid (o : NamedOpcode) : Byte := BitVec.ofNat 8 ((Config.opidPred o).val + 1)

/-- What the contracts leave unsaid: the operations on values. The source gives them no operand
kinds, result kinds, overflow, rounding or zero-divisor rule (91_not_in_source.md N18), so a contract
is read over any operations. -/
structure ContractOps where
  add : StackValue → StackValue → StackValue
  sub : StackValue → StackValue → StackValue
  mul : StackValue → StackValue → StackValue
  div : StackValue → StackValue → StackValue
  floorDiv : StackValue → StackValue → StackValue
  mod : StackValue → StackValue → StackValue
  bitAnd : StackValue → StackValue → StackValue
  bitOr : StackValue → StackValue → StackValue
  bitXor : StackValue → StackValue → StackValue
  bitNot : StackValue → StackValue

/-- The two top values `[.., A, B]` give way to the values `f A B`; the rest is untouched. -/
def replacesTopTwo (f : StackValue → StackValue → List StackValue)
    (before after : List StackValue) : Prop :=
  ∃ rest a b, before = rest ++ [a, b] ∧ after = rest ++ f a b

/-- The contract of each named opcode, stacks before and after with the top rightmost. How long the
run of `Reverse` and `Length` is, and which count `Length` pushes, the source does not settle
(90_conflicts.md C6): any run and any count are admitted. -/
def stackContract (ops : ContractOps) :
    NamedOpcode → List StackValue → List StackValue → Prop
  | .push, before, after => ∃ v, after = before ++ [v]
  | .dupe, before, after => ∃ rest v, before = rest ++ [v] ∧ after = rest ++ [v, v]
  | .pop, before, after => ∃ rest v, before = rest ++ [v] ∧ after = rest
  | .swap, before, after => replacesTopTwo (fun a b => [b, a]) before after
  | .reverse, before, after => ∃ rest run, before = rest ++ run ∧ after = rest ++ run.reverse
  | .length, before, after =>
    ∃ rest run count, before = rest ++ run ∧ after = rest ++ run ++ [count]
  | .add, before, after => replacesTopTwo (fun a b => [ops.add b a]) before after
  | .sub, before, after => replacesTopTwo (fun a b => [ops.sub b a]) before after
  | .mul, before, after => replacesTopTwo (fun a b => [ops.mul b a]) before after
  | .div, before, after => replacesTopTwo (fun a b => [ops.div b a]) before after
  | .fdiv, before, after => replacesTopTwo (fun a b => [ops.floorDiv b a]) before after
  | .mod, before, after => replacesTopTwo (fun a b => [ops.mod b a]) before after
  | .divmod, before, after =>
    replacesTopTwo (fun a b => [ops.floorDiv b a, ops.mod b a]) before after
  | .and, before, after => replacesTopTwo (fun a b => [ops.bitAnd a b]) before after
  | .or, before, after => replacesTopTwo (fun a b => [ops.bitOr a b]) before after
  | .xor, before, after => replacesTopTwo (fun a b => [ops.bitXor a b]) before after
  | .not, before, after => ∃ rest v, before = rest ++ [v] ∧ after = rest ++ [ops.bitNot v]

end Sys2Proof.Machine
end

