-- ==== Sys2Proof/Machine/Signed.lean ====
section
/-! DEFINITION. The signed immediate decoder and the thread-level dispatchers
(41_signed_decoder.md). Their cursor is `PC`, which they advance on success. -/

namespace Sys2Proof.Machine

/-- A thread-level fetch of `k` bytes: out of bounds `NotEnoughBytes` with `PC` unchanged, else `PC`
advances by `k` and the assembled number is delivered as `deliver` reads it
(41_signed_decoder.md R160, R171). -/
def State.fetchAtPc (s : State) (k : Nat) (deliver : Nat → Word) : Result :=
  s.fetch s.pc k (.next (s.raise (.notEnoughBytes (BitVec.ofNat 64 k)))) fun u =>
    .next ((s.setPc (s.pc + BitVec.ofNat 64 k)).respond
      { okResponse with res := deliver u, res2 := s.pc + BitVec.ofNat 64 k })

/-- The native widths: the bit pattern read as a same-width signed number, sign-extended on the port
(41_signed_decoder.md R160). -/
def nativeSigned (width u : Nat) : Word := (BitVec.ofNat width u).signExtend 64

/-- The mask procedure: if a bit of the negative-bit mask is set, the sign-extend mask is or-ed in
(41_signed_decoder.md R169). -/
def applySignMasks {w : Nat} (acc negative extend : BitVec w) : BitVec w :=
  if acc &&& negative ≠ 0 then acc ||| extend else acc

/-- `FetchI8` (41_signed_decoder.md R161). -/
def execFetchI8 (s : State) : Result := s.fetchAtPc 1 (nativeSigned 8)

/-- `FetchI16` (41_signed_decoder.md R162). -/
def execFetchI16 (s : State) : Result := s.fetchAtPc 2 (nativeSigned 16)

/-- `FetchI24`, through a 32-bit accumulator (41_signed_decoder.md R163). -/
def execFetchI24 (s : State) : Result :=
  s.fetchAtPc 3 fun u =>
    (applySignMasks (BitVec.ofNat 32 u) 0x00800000 0xFF000000).signExtend 64

/-- `FetchI32` (41_signed_decoder.md R164). -/
def execFetchI32 (s : State) : Result := s.fetchAtPc 4 (nativeSigned 32)

/-- `FetchI40`, through a 64-bit accumulator (41_signed_decoder.md R165). -/
def execFetchI40 (s : State) : Result :=
  s.fetchAtPc 5 fun u =>
    applySignMasks (BitVec.ofNat 64 u) 0x0000008000000000 0xFFFFFF0000000000

/-- `FetchI48`, through a 64-bit accumulator (41_signed_decoder.md R166). -/
def execFetchI48 (s : State) : Result :=
  s.fetchAtPc 6 fun u =>
    applySignMasks (BitVec.ofNat 64 u) 0x0000800000000000 0xFFFF000000000000

/-- `FetchI56`, through a 64-bit accumulator (41_signed_decoder.md R167). -/
def execFetchI56 (s : State) : Result :=
  s.fetchAtPc 7 fun u =>
    applySignMasks (BitVec.ofNat 64 u) 0x0080000000000000 0xFF00000000000000

/-- `FetchI64` (41_signed_decoder.md R168). -/
def execFetchI64 (s : State) : Result := s.fetchAtPc 8 (nativeSigned 64)

/-- The width function a count in 1..8 routes to (41_signed_decoder.md R170). -/
def fetchSignedOfWidth : Nat → State → Result
  | 1 => execFetchI8
  | 2 => execFetchI16
  | 3 => execFetchI24
  | 4 => execFetchI32
  | 5 => execFetchI40
  | 6 => execFetchI48
  | 7 => execFetchI56
  | _ => execFetchI64

/-- `FetchSigned`: the size is tested before the bounds (41_signed_decoder.md R170, D28). -/
def execFetchSigned (count : Word) (s : State) : Result :=
  if count.toInt < 1 ∨ 8 < count.toInt then .next (s.raise (.invalidImmediateSize count))
  else fetchSignedOfWidth count.toNat s

/-- `FetchUnsigned` (41_signed_decoder.md R171). -/
def execFetchUnsigned (count : Word) (s : State) : Result :=
  if count.toInt < 1 ∨ 8 < count.toInt then .next (s.raise (.invalidImmediateSize count))
  else s.fetchAtPc count.toNat (BitVec.ofNat 64)

end Sys2Proof.Machine
end

