-- ==== Sys2Proof/Machine/Opcodes.lean ====
section
/-! DEFINITION. The bytecode opcodes (44_opcodes.md): the dispatch arm of each row of the opcode map,
entered after `Step` has advanced `PC` past the opcode byte (43_thread.md R242; log 25). -/

namespace Sys2Proof.Machine

/-- An opcode without a handler: `OperationUndefined`, nothing else (44_opcodes.md R271). -/
def State.noHandler (s : State) : StepResult := (s, some .operationUndefined)

/-- `NoOp` does nothing and succeeds (44_opcodes.md R270). -/
def opNoOp (s : State) : StepResult := (s, none)

/-- Opcode bytes 0x80..0xFF (44_opcodes.md R271). -/
def opUndefined80FF (_low : BitVec 7) (s : State) : StepResult := s.noHandler

/-- Opcode bytes 0x40..0x7F (44_opcodes.md R271). -/
def opUndefined407F (_low : BitVec 6) (s : State) : StepResult := s.noHandler

/-- Opcode bytes 0x20..0x3F (44_opcodes.md R271). -/
def opUndefined203F (_low : BitVec 5) (s : State) : StepResult := s.noHandler

/-- Opcode bytes 0x10..0x1F (44_opcodes.md R271). -/
def opUndefined101F (_low : BitVec 4) (s : State) : StepResult := s.noHandler

/-- Opcode bytes 0x08..0x0F (44_opcodes.md R271). -/
def opUndefined080F (_low : BitVec 3) (s : State) : StepResult := s.noHandler

/-- Opcode bytes 0x04..0x07 (44_opcodes.md R271). -/
def opUndefined0407 (_low : BitVec 2) (s : State) : StepResult := s.noHandler

/-- Opcode bytes 0x02 and 0x03 (44_opcodes.md R271). -/
def opUndefined0203 (_low : BitVec 1) (s : State) : StepResult := s.noHandler

/-- Opcode byte 0x01 (44_opcodes.md R271). -/
def opUndefined0101 (s : State) : StepResult := s.noHandler

/-- The dispatch of `Step` (43_thread.md R242, R243). -/
def dispatchOpcode : Opcode → State → StepResult
  | .noOp => opNoOp
  | .undefined80FF low => opUndefined80FF low
  | .undefined407F low => opUndefined407F low
  | .undefined203F low => opUndefined203F low
  | .undefined101F low => opUndefined101F low
  | .undefined080F low => opUndefined080F low
  | .undefined0407 low => opUndefined0407 low
  | .undefined0203 low => opUndefined0203 low
  | .undefined0101 => opUndefined0101

/-- `NoOp` as an instruction. -/
def execNoOp (s : State) : Result := StepResult.finish (opNoOp s)

/-- The row 0x80..0xFF as an instruction. -/
def execUndefined80FF (low : BitVec 7) (s : State) : Result := StepResult.finish (opUndefined80FF low s)

/-- The row 0x40..0x7F as an instruction. -/
def execUndefined407F (low : BitVec 6) (s : State) : Result := StepResult.finish (opUndefined407F low s)

/-- The row 0x20..0x3F as an instruction. -/
def execUndefined203F (low : BitVec 5) (s : State) : Result := StepResult.finish (opUndefined203F low s)

/-- The row 0x10..0x1F as an instruction. -/
def execUndefined101F (low : BitVec 4) (s : State) : Result := StepResult.finish (opUndefined101F low s)

/-- The row 0x08..0x0F as an instruction. -/
def execUndefined080F (low : BitVec 3) (s : State) : Result := StepResult.finish (opUndefined080F low s)

/-- The row 0x04..0x07 as an instruction. -/
def execUndefined0407 (low : BitVec 2) (s : State) : Result := StepResult.finish (opUndefined0407 low s)

/-- The row 0x02..0x03 as an instruction. -/
def execUndefined0203 (low : BitVec 1) (s : State) : Result := StepResult.finish (opUndefined0203 low s)

/-- The row 0x01 as an instruction. -/
def execUndefined0101 (s : State) : Result := StepResult.finish (opUndefined0101 s)

end Sys2Proof.Machine
end

