-- ==== Sys2Proof/Machine/Thread.lean ====
section
/-! DEFINITION. The execution thread (43_thread.md): `Step`, `Run`, `RunFor` and `Construct`. -/

namespace Sys2Proof.Machine

/-- One `Step`: out of range `BytecodeOverflow` with nothing changed; else the opcode byte is read,
`PC` advances past it, and the opcode is dispatched (43_thread.md R242 to R244). An index outside
the buffer is the out-of-range case, `PC < 0 or PC >= L`. -/
def State.stepOnce (s : State) : StepResult :=
  match s.readByte s.pc.toInt with
  | none => (s, some .bytecodeOverflow)
  | some op => dispatchOpcode (decodeOpcode op) (s.setPc (s.pc + 1))

/-- `Step`s in sequence, at most `n`, until one returns an error (43_thread.md R247). -/
def State.stepUpTo : Nat → State → StepResult
  | 0, s => (s, none)
  | n + 1, s =>
    match s.stepOnce with
    | (t, none) => State.stepUpTo n t
    | (t, some e) => (t, some e)

/-- The number of `Step`s after which `Run` has ended: `L - PC + 1` (43_thread.md R248; log 23). -/
def State.runBound (s : State) : Nat := ((s.length : Int) - s.pc.toInt).toNat + 1

/-- `Step` (43_thread.md R242). -/
def execStep (s : State) : Result := StepResult.finish s.stepOnce

/-- `Run`: `Step`s until one returns an error, which it returns (43_thread.md R246). -/
def execRun (s : State) : Result := StepResult.finish (State.stepUpTo s.runBound s)

/-- `RunFor`: at most `n` `Step`s, none for `n <= 0` (43_thread.md R247). -/
def execRunFor (n : Word) (s : State) : Result := StepResult.finish (State.stepUpTo n.toInt.toNat s)

/-- `Construct`: the whole thread state is replaced, `pc0` unchecked (43_thread.md R240). A buffer
longer than the largest `L` is no operand (00_scope.md R8; log 12). -/
def execConstruct (buffer : List Byte) (pc0 ref : Word) (s : State) : Result :=
  if buffer.length ≤ maxBufferLength then
    .next ({ s with
      buf := Memory.ofBytes buffer
      len := BitVec.ofNat 64 buffer.length
      pc := pc0
      stack := []
      machineRef := ref }.respond okResponse)
  else .refused (.bufferTooLong buffer.length)

end Sys2Proof.Machine
end

