-- ==== Sys2Proof/Machine/Floats.lean ====
section
/-! DEFINITION. Binary floating point as far as the conversions need it: the two formats, the number
a pattern denotes, rounding to nearest with ties to even in one step, truncation toward zero, and
NaN results. -/

namespace Sys2Proof.Machine

/-- A binary interchange format: `precision` counts the hidden bit, `expOnes` is the exponent field
of infinities and NaNs, and `minExp` the power of two of the last place of a subnormal
(42_value_types.md R191; log 10). -/
structure FloatFormat where
  width : Nat
  precision : Nat
  expOnes : Nat
  minExp : Int
  deriving DecidableEq, Repr

/-- IEEE 754 binary32. -/
def binary32 : FloatFormat := { width := 32, precision := 24, expOnes := 255, minExp := -149 }

/-- IEEE 754 binary64. -/
def binary64 : FloatFormat := { width := 64, precision := 53, expOnes := 2047, minExp := -1074 }

/-- The sign bit. -/
def FloatFormat.sign (f : FloatFormat) (bits : Nat) : Bool := bits.testBit (f.width - 1)

/-- The pattern without its sign bit. -/
def FloatFormat.magnitude (f : FloatFormat) (bits : Nat) : Nat := bits % 2 ^ (f.width - 1)

/-- The magnitude of an infinity. -/
def FloatFormat.infinity (f : FloatFormat) : Nat := f.expOnes * 2 ^ (f.precision - 1)

/-- `isNaN`: above the infinities. -/
def FloatFormat.isNaN (f : FloatFormat) (bits : Nat) : Bool := decide (f.infinity < f.magnitude bits)

/-- `isInf`. -/
def FloatFormat.isInf (f : FloatFormat) (bits : Nat) : Bool := decide (f.magnitude bits = f.infinity)

/-- `isFinite`. -/
def FloatFormat.isFinite (f : FloatFormat) (bits : Nat) : Bool := decide (f.magnitude bits < f.infinity)

/-- The biased exponent field. -/
def FloatFormat.expField (f : FloatFormat) (bits : Nat) : Nat := f.magnitude bits / 2 ^ (f.precision - 1)

/-- The fraction field. -/
def FloatFormat.fraction (f : FloatFormat) (bits : Nat) : Nat := bits % 2 ^ (f.precision - 1)

/-- The integer significand of a finite pattern: with the hidden bit unless subnormal. -/
def FloatFormat.significand (f : FloatFormat) (bits : Nat) : Nat :=
  if f.expField bits = 0 then f.fraction bits else 2 ^ (f.precision - 1) + f.fraction bits

/-- The power of two of the significand's last place; `|val|` is `significand * 2^exponent`. -/
def FloatFormat.exponent (f : FloatFormat) (bits : Nat) : Int :=
  f.minExp + ((max (f.expField bits) 1 - 1 : Nat) : Int)

/-- A magnitude with a sign. -/
def FloatFormat.withSign (f : FloatFormat) (negative : Bool) (mag : Nat) : Nat :=
  if negative then 2 ^ (f.width - 1) + mag else mag

/-- `m / d` rounded to the nearest integer, ties to the even one. -/
def roundQuotient (m d : Nat) : Nat :=
  if 2 * (m % d) < d then m / d
  else if d < 2 * (m % d) then m / d + 1
  else m / d + m / d % 2

/-- `m * 2^e` rounded to an integer, to nearest, ties to even. -/
def roundScaled (m : Nat) (e : Int) : Nat :=
  if 0 ≤ e then m * 2 ^ e.toNat else roundQuotient m (2 ^ (-e).toNat)

/-- The power of two of the last place of the result for the number `m * 2^e`, `m > 0`: `precision`
bits from its leading bit on, but no place below the smallest subnormal. -/
def FloatFormat.lastPlace (f : FloatFormat) (m : Nat) (e : Int) : Int :=
  max (e + m.log2 - (f.precision - 1 : Nat)) f.minExp

/-- The magnitude of `m * 2^e` rounded under `ROUND`: to nearest, ties to the even significand, in
one rounding; at or above the overflow threshold an infinity, below the normals a subnormal or zero
(42_value_types.md R192). The significand is added to the exponent field, so that a carry out of the
significand moves to the next binade. -/
def FloatFormat.roundMagnitude (f : FloatFormat) (m : Nat) (e : Int) : Nat :=
  if m = 0 then 0
  else
    let q := f.lastPlace m e
    min ((q - f.minExp).toNat * 2 ^ (f.precision - 1) + roundScaled m (e - q)) f.infinity

/-- `round_F(x)` of an integer; zero is +0 (42_value_types.md R216 to R219). -/
def FloatFormat.roundInt (f : FloatFormat) (x : Int) : Nat :=
  f.withSign (decide (x < 0)) (f.roundMagnitude x.natAbs 0)

/-- `trunc(val(f))` of a finite pattern (42_value_types.md R221, 00_scope.md R12). -/
def FloatFormat.truncate (f : FloatFormat) (bits : Nat) : Int :=
  let m := f.significand bits
  let e := f.exponent bits
  let t := if 0 ≤ e then m * 2 ^ e.toNat else m / 2 ^ (-e).toNat
  if f.sign bits then -(t : Int) else t

/-- Some NaN: the sign and fraction of free bits, the exponent all ones, and a fraction that is not
zero. Every NaN of the format is one (42_value_types.md R193; log 6). -/
def FloatFormat.nanOf (f : FloatFormat) (raw : Nat) : Nat :=
  f.withSign (f.sign raw)
    (f.infinity + if f.fraction raw = 0 then 2 ^ (f.precision - 2) else f.fraction raw)

/-- A float-to-float conversion (42_value_types.md R208, R220): a NaN gives a draw of `NAN_CONV`, an
infinity the infinity of its sign, a finite number its rounding with its sign. -/
def FloatFormat.convert (src dst : FloatFormat) (bits : Nat) (s : State) : State × Word :=
  if src.isNaN bits then (s.draw, BitVec.ofNat 64 (dst.nanOf (Config.nanConv s.draws).toNat))
  else if src.isInf bits then (s, BitVec.ofNat 64 (dst.withSign (src.sign bits) dst.infinity))
  else
    (s, BitVec.ofNat 64
      (dst.withSign (src.sign bits) (dst.roundMagnitude (src.significand bits) (src.exponent bits))))

end Sys2Proof.Machine
end

