-- ==== Sys2Proof/Machine/Values.lean ====
section
/-! DEFINITION. The value conversions (42_value_types.md): `KindInfo`, `Upcast` and `Downcast`. They
read their operands only. -/

namespace Sys2Proof.Machine

/-- `KindInfo`; no meaning for a kind without a byte size or a tag that is no kind
(42_value_types.md R196, 93_implementation_defined.md U9). -/
def execKindInfo (tag : KindTag) (s : State) : Result :=
  match tag with
  | .unassigned n => .refused (.kindInfoOperand (.unassigned n))
  | .kind k =>
    match kindByteSize k with
    | some size => s.returnValue k (BitVec.ofNat 64 size)
    | none => .refused (.kindInfoOperand (.kind k))

/-- `Upcast`, one line per numeric kind (42_value_types.md R200 to R209); no meaning for a reserved
kind or a tag that is no kind (R199, U9). -/
def execUpcast (source : KindTag) (payload : Word) (s : State) : Result :=
  match source with
  | .kind .uint8 => s.returnValue .uint64 (zeroExtended 8 payload)
  | .kind .uint16 => s.returnValue .uint64 (zeroExtended 16 payload)
  | .kind .uint32 => s.returnValue .uint64 (zeroExtended 32 payload)
  | .kind .uint64 => s.returnValue .uint64 payload
  | .kind .int8 => s.returnValue .int64 (signExtended 8 payload)
  | .kind .int16 => s.returnValue .int64 (signExtended 16 payload)
  | .kind .int32 => s.returnValue .int64 (signExtended 32 payload)
  | .kind .int64 => s.returnValue .int64 payload
  | .kind .float32 =>
    let r := binary32.convert binary64 (zeroExtended 32 payload).toNat s
    r.1.returnValue .float64 r.2
  | .kind .float64 => s.returnValue .float64 payload
  | t => .refused (.upcastOperand t)

/-- A finite float to an integer kind: truncation toward zero, then the target's wraparound; a NaN or
an infinity gives the free function `F2I_NONFINITE` (42_value_types.md R221, R222, R223; logs 7
and 24). -/
def floatToInteger (p : Word) (target : Kind) : Word :=
  if binary64.isFinite p.toNat then wrapPayload (kindBits target) (binary64.truncate p.toNat)
  else zeroExtended (kindBits target) (Config.f2iNonfinite p target)

/-- A canonical value to an integer kind (42_value_types.md R212 to R215, R221 to R223). -/
def downcastToInteger (source : CanonicalKind) (p : Word) (target : Kind) (s : State) : Result :=
  match source with
  | .uint64 => s.returnValue target (wrapPayload (kindBits target) p.toNat)
  | .int64 => s.returnValue target (wrapPayload (kindBits target) p.toInt)
  | .float64 => s.returnValue target (floatToInteger p target)

/-- The format of a float kind. -/
def floatFormatOf (target : Kind) : FloatFormat :=
  if target = .float32 then binary32 else binary64

/-- A canonical value to a float kind (42_value_types.md R216 to R220). -/
def downcastToFloat (source : CanonicalKind) (p : Word) (target : Kind) (s : State) : Result :=
  match source with
  | .uint64 => s.returnValue target (BitVec.ofNat 64 ((floatFormatOf target).roundInt p.toNat))
  | .int64 => s.returnValue target (BitVec.ofNat 64 ((floatFormatOf target).roundInt p.toInt))
  | .float64 =>
    let r := binary64.convert (floatFormatOf target) p.toNat s
    r.1.returnValue target r.2

/-- `Downcast` of a StackValue, in the order of 42_value_types.md R210: the identity, the targets
that always fail, integer targets, float targets. -/
def downcastStackValue (source : CanonicalKind) (p : Word) (target : KindTag) (s : State) : Result :=
  if target = .kind (canonicalKind source) then s.returnValue (canonicalKind source) p
  else
    match target with
    | .unassigned n => .next (s.raise (.castError (canonicalKind source) (.unassigned n)))
    | .kind t =>
      match kindFamily t with
      | .reserved => .next (s.raise (.castError (canonicalKind source) (.kind t)))
      | .unsigned => downcastToInteger source p t s
      | .signed => downcastToInteger source p t s
      | .float => downcastToFloat source p t s

/-- `Downcast`; no meaning for a source that is no StackValue (42_value_types.md R210, R227, U8). -/
def execDowncast (source : KindTag) (payload : Word) (target : KindTag) (s : State) : Result :=
  match source with
  | .kind .uint64 => downcastStackValue .uint64 payload target s
  | .kind .int64 => downcastStackValue .int64 payload target s
  | .kind .float64 => downcastStackValue .float64 payload target s
  | t => .refused (.downcastOperand t)

end Sys2Proof.Machine
end

