-- ==== Sys2Proof/Machine/Dispatch.lean ====
section
/-! DEFINITION. The meaning of every instruction, one arm per row of the opcode table. -/

namespace Sys2Proof.Machine

def exec (i : Instr) (s : State) : Host.Outcome State Fault Refusal :=
  match i with
  | .noOp => Sys2Proof.Machine.execNoOp s
  | .undefined80FF low => Sys2Proof.Machine.execUndefined80FF low s
  | .undefined407F low => Sys2Proof.Machine.execUndefined407F low s
  | .undefined203F low => Sys2Proof.Machine.execUndefined203F low s
  | .undefined101F low => Sys2Proof.Machine.execUndefined101F low s
  | .undefined080F low => Sys2Proof.Machine.execUndefined080F low s
  | .undefined0407 low => Sys2Proof.Machine.execUndefined0407 low s
  | .undefined0203 low => Sys2Proof.Machine.execUndefined0203 low s
  | .undefined0101 => Sys2Proof.Machine.execUndefined0101 s
  | .fetchU8 pc => Sys2Proof.Machine.execFetchU8 pc s
  | .fetchU16 pc => Sys2Proof.Machine.execFetchU16 pc s
  | .fetchU24 pc => Sys2Proof.Machine.execFetchU24 pc s
  | .fetchU32 pc => Sys2Proof.Machine.execFetchU32 pc s
  | .fetchU40 pc => Sys2Proof.Machine.execFetchU40 pc s
  | .fetchU48 pc => Sys2Proof.Machine.execFetchU48 pc s
  | .fetchU56 pc => Sys2Proof.Machine.execFetchU56 pc s
  | .fetchU64 pc => Sys2Proof.Machine.execFetchU64 pc s
  | .fetchN pc count => Sys2Proof.Machine.execFetchN pc count s
  | .fetchI8 => Sys2Proof.Machine.execFetchI8 s
  | .fetchI16 => Sys2Proof.Machine.execFetchI16 s
  | .fetchI24 => Sys2Proof.Machine.execFetchI24 s
  | .fetchI32 => Sys2Proof.Machine.execFetchI32 s
  | .fetchI40 => Sys2Proof.Machine.execFetchI40 s
  | .fetchI48 => Sys2Proof.Machine.execFetchI48 s
  | .fetchI56 => Sys2Proof.Machine.execFetchI56 s
  | .fetchI64 => Sys2Proof.Machine.execFetchI64 s
  | .fetchSigned count => Sys2Proof.Machine.execFetchSigned count s
  | .fetchUnsigned count => Sys2Proof.Machine.execFetchUnsigned count s
  | .writeU8 value => Sys2Proof.Machine.execWriteU8 value s
  | .writeU16 value => Sys2Proof.Machine.execWriteU16 value s
  | .writeU24 value => Sys2Proof.Machine.execWriteU24 value s
  | .writeU32 value => Sys2Proof.Machine.execWriteU32 value s
  | .writeU40 value => Sys2Proof.Machine.execWriteU40 value s
  | .writeU48 value => Sys2Proof.Machine.execWriteU48 value s
  | .writeU56 value => Sys2Proof.Machine.execWriteU56 value s
  | .writeU64 value => Sys2Proof.Machine.execWriteU64 value s
  | .writeVarInt value => Sys2Proof.Machine.execWriteVarInt value s
  | .unsignedByteSize value => Sys2Proof.Machine.execUnsignedByteSize value s
  | .unsignedToBytes value => Sys2Proof.Machine.execUnsignedToBytes value s
  | .unsignedFromBytes k lanes => Sys2Proof.Machine.execUnsignedFromBytes k lanes s
  | .upcast source payload => Sys2Proof.Machine.execUpcast source payload s
  | .downcast source payload target => Sys2Proof.Machine.execDowncast source payload target s
  | .kindInfo tag => Sys2Proof.Machine.execKindInfo tag s
  | .step => Sys2Proof.Machine.execStep s
  | .run => Sys2Proof.Machine.execRun s
  | .runFor n => Sys2Proof.Machine.execRunFor n s
  | .construct buffer pc0 ref => Sys2Proof.Machine.execConstruct buffer pc0 ref s

end Sys2Proof.Machine
end

