-- ==== Sys2Proof/Machine/Step.lean ====
section
/-! DEFINITION. The step of the machine: the unit takes the host's next input. Also the host's probe,
which places one instruction where the next step takes it. -/

namespace Sys2Proof.Machine

/-- One command run to completion, or one reset; with no input the unit stays as it is
(00_scope.md R9, 20_memory.md R58; log 1). A command the decoder rejects has no meaning (U12). -/
def step (s : State) : Host.Outcome State Fault Refusal :=
  match s.port with
  | [] => .next s
  | .reset :: _ => .next s.takeInput.hardReset
  | .command c :: _ =>
    match decodeCommand c with
    | .ok i => exec i s.takeInput
    | .error (.notACommand code) => .refused (.notACommand code)

/-- The state whose next step takes the instruction of a table word: a command is issued at the port;
an opcode byte is laid at `PC` and a `Step` command issued, which fetches and runs it (log 17). -/
def State.withFetchWord (s : State) (nbits w : Nat) : State :=
  match tableEncoding nbits w with
  | .command c => s.issue c
  | .opcode op => (s.withOpcodeAtPc op).issue { cmd := 0x38 }

end Sys2Proof.Machine
end

