-- ==== Sys2Proof/Safety.lean ====
section
/-! DEFINITION. The terms the statements use: the invariant of the state, the end of a run, the forms
of an instruction family, and the spec's numbers written without the machine's own loops. -/

namespace Sys2Proof.Machine

/-- What every step keeps: the buffer in canonical form, every entry of it inside the buffer, and a
length the spec admits (10_state.md R29, 00_scope.md R8; log 13). -/
structure State.Inv (s : State) : Prop where
  canonical : s.buf.wf = true
  within : s.buf.below s.length = true
  lengthLegal : s.length ≤ maxBufferLength

/-- `0 <= PC <= L` (10_state.md R22). -/
def State.pcInRange (s : State) : Prop := 0 ≤ s.pc.toInt ∧ s.pc.toInt ≤ s.length

/-- The stack is within the capacity `STACK_DEPTH`, if it has one (00_scope.md R8, 10_state.md R27;
log 22). -/
def State.stackFits (s : State) : Prop := ∀ d, Config.stackDepth = some d → s.stack.length ≤ d

/-- The next input replaces the thread: a reset, or a `Construct` command (10_state.md R34). -/
def State.replacesThread (s : State) : Prop :=
  (∃ rest, s.port = .reset :: rest) ∨ ∃ c rest, s.port = .command c :: rest ∧ c.cmd = 0x3F

/-- A run has ended normally: the last response is `BytecodeOverflow` and `PC = L`
(70_reset_and_hazards.md R343). -/
def State.endedNormally (s : State) : Prop :=
  s.response = errorResponse .bytecodeOverflow ∧ s.pc.toInt = s.length

/-- A run has ended in a fault: the last response is `OperationUndefined`
(70_reset_and_hazards.md R343). -/
def State.endedInFault (s : State) : Prop := s.response = errorResponse .operationUndefined

/-- The thread was constructed out of range and no instruction ran (70_reset_and_hazards.md R343). -/
def State.neverStarted (s : State) : Prop :=
  s.response = errorResponse .bytecodeOverflow ∧ ¬ s.pcInRange

/-- `sum over i in 0..n-1 of BUF[addr + i] * 2^(8 * (n - 1 - i))` (00_scope.md R14). -/
def Memory.number (m : Memory) (addr n : Nat) : Nat :=
  ∑ i ∈ Finset.range n, (m.byteAt (addr + i)).toNat * 2 ^ (8 * (n - 1 - i))

/-- `sum over i in 0..k-1 of s[i] * 2^(8(k-1-i))` (40_unsigned_codec.md R143). -/
def sequenceNumber (bs : List Byte) : Nat :=
  ∑ i ∈ Finset.range bs.length, (bs.getD i 0).toNat * 2 ^ (8 * (bs.length - 1 - i))

/-- A `k`-byte number read as two's complement (30_encoding.md R84). -/
def twosComplement (k u : Nat) : Int :=
  if 2 ^ (8 * k - 1) ≤ u then (u : Int) - 2 ^ (8 * k) else u

/-- The eight unsigned fetches with their byte counts (40_unsigned_codec.md R111 to R118). -/
def fetchUForms (pc : Word) : List (Nat × Instr) :=
  [(1, .fetchU8 pc), (2, .fetchU16 pc), (3, .fetchU24 pc), (4, .fetchU32 pc),
    (5, .fetchU40 pc), (6, .fetchU48 pc), (7, .fetchU56 pc), (8, .fetchU64 pc)]

/-- The eight signed fetches with their byte counts (41_signed_decoder.md R161 to R168). -/
def fetchIForms : List (Nat × Instr) :=
  [(1, .fetchI8), (2, .fetchI16), (3, .fetchI24), (4, .fetchI32),
    (5, .fetchI40), (6, .fetchI48), (7, .fetchI56), (8, .fetchI64)]

/-- The eight fixed-width writers with their byte counts (40_unsigned_codec.md R131 to R138). -/
def writeUForms (value : Word) : List (Nat × Instr) :=
  [(1, .writeU8 value), (2, .writeU16 value), (3, .writeU24 value), (4, .writeU32 value),
    (5, .writeU40 value), (6, .writeU48 value), (7, .writeU56 value), (8, .writeU64 value)]

/-- The instructions with a row in the table of `PC` writes (10_state.md R23). -/
def writesPc : Instr → Bool
  | .fetchI8 => true
  | .fetchI16 => true
  | .fetchI24 => true
  | .fetchI32 => true
  | .fetchI40 => true
  | .fetchI48 => true
  | .fetchI56 => true
  | .fetchI64 => true
  | .fetchSigned _ => true
  | .fetchUnsigned _ => true
  | .step => true
  | .run => true
  | .runFor _ => true
  | .construct _ _ _ => true
  | _ => false

/-- The commands that reach the sink (10_state.md R31). -/
def writesSink : Instr → Bool
  | .writeU8 _ => true
  | .writeU16 _ => true
  | .writeU24 _ => true
  | .writeU32 _ => true
  | .writeU40 _ => true
  | .writeU48 _ => true
  | .writeU56 _ => true
  | .writeU64 _ => true
  | .writeVarInt _ => true
  | _ => false

/-- `Construct`, the one command that replaces the thread state (43_thread.md R240). -/
def isConstruct : Instr → Bool
  | .construct _ _ _ => true
  | _ => false

/-- The conversions that may use a free value (42_value_types.md R193). -/
def mayDrawNaN : Instr → Bool
  | .upcast _ _ => true
  | .downcast _ _ _ => true
  | _ => false

/-- The two float formats of the value kinds (42_value_types.md R191). -/
def floatKinds : List (Kind × FloatFormat) := [(.float32, binary32), (.float64, binary64)]

/-- The eight integer kinds with their widths (42_value_types.md R196). -/
def integerKinds : List (Kind × Nat) :=
  [(.uint8, 8), (.uint16, 16), (.uint32, 32), (.uint64, 64),
    (.int8, 8), (.int16, 16), (.int32, 32), (.int64, 64)]

/-- The eight reserved kinds (42_value_types.md R197). -/
def reservedKinds : List Kind :=
  [.boolean, .string, .list, .map, .struct, .class_, .function, .method]

/-- The integer a canonical integer payload denotes (42_value_types.md R191); none for a float. -/
def integerOf : CanonicalKind → Word → Option Int
  | .uint64, p => some p.toNat
  | .int64, p => some p.toInt
  | .float64, _ => none

/-- `val(f)`: the number a finite pattern denotes (00_scope.md R15). -/
def FloatFormat.value (f : FloatFormat) (bits : Nat) : ℚ :=
  (if f.sign bits then -1 else 1) * (f.significand bits : ℚ) * 2 ^ f.exponent bits

/-- `r` is the pattern the rounding rule selects for the number `x`: finite, nearest among the finite
patterns, and of even significand where another number is as near (42_value_types.md R192). -/
structure FloatFormat.RoundsTo (f : FloatFormat) (x : ℚ) (r : Nat) : Prop where
  pattern : r < 2 ^ f.width
  finite : f.isFinite r = true
  nearest : ∀ y, y < 2 ^ f.width → f.isFinite y = true → |f.value r - x| ≤ |f.value y - x|
  tiesToEven : ∀ y, y < 2 ^ f.width → f.isFinite y = true → f.value y ≠ f.value r →
    |f.value y - x| = |f.value r - x| → f.significand r % 2 = 0

/-- The bytes a writer of `k` bytes offers: `value[8k-1:8k-8], ..., value[7:0]`
(40_unsigned_codec.md R130). -/
def offeredBytes (k : Nat) (value : Word) : List Byte :=
  (List.range k).map fun j => value.extractLsb' (8 * (k - 1 - j)) 8

/-- A state with another `MACHINE_REF`. -/
def State.withMachineRef (s : State) (ref : Word) : State := { s with machineRef := ref }

/-- An outcome with its next state, if it has one, changed. -/
def mapNext (f : State → State) : Result → Result
  | .next s => .next (f s)
  | .fault r => .fault r
  | .refused r => .refused r

/-- The command select codes of 30_encoding.md R95. -/
def commandCodes : List Nat :=
  [0x01, 0x02, 0x03, 0x04, 0x05, 0x06, 0x07, 0x08, 0x09,
    0x11, 0x12, 0x13, 0x14, 0x15, 0x16, 0x17, 0x18, 0x19, 0x1A,
    0x21, 0x22, 0x23, 0x24, 0x25, 0x26, 0x27, 0x28, 0x29, 0x2A, 0x2B, 0x2C,
    0x30, 0x31, 0x32, 0x38, 0x39, 0x3A, 0x3F]

/-- The unsigned kinds with their widths (42_value_types.md R200 to R203). -/
def unsignedKinds : List (Kind × Nat) :=
  [(.uint8, 8), (.uint16, 16), (.uint32, 32), (.uint64, 64)]

/-- The signed kinds with their widths (42_value_types.md R204 to R207). -/
def signedKinds : List (Kind × Nat) :=
  [(.int8, 8), (.int16, 16), (.int32, 32), (.int64, 64)]

/-- The ten numeric kinds with their byte sizes (42_value_types.md R196). -/
def numericKinds : List (Kind × Nat) :=
  [(.uint8, 1), (.uint16, 2), (.uint32, 4), (.uint64, 8),
    (.int8, 1), (.int16, 2), (.int32, 4), (.int64, 8), (.float32, 4), (.float64, 8)]

/-- The largest number below which a number still rounds to a finite pattern of binary32:
`2^emax * (2 - 2^-p)` (42_value_types.md R192). -/
def binary32Threshold : ℚ := 2 ^ 127 * (2 - 1 / 2 ^ 24)

/-- `trunc(r)` (00_scope.md R12). -/
def truncRat (r : ℚ) : Int := if 0 ≤ r then ⌊r⌋ else ⌈r⌉

end Sys2Proof.Machine
end

