-- ==== Sys2Proof/Certificates/Slice0/Obligations.lean ====
section
/-! DEFINITION. The statements for the provers. Each is about the machine, not about a program; the
docstring names the rule it formalises, or the log entry where it rests on a choice of the model. -/

open Sys2Proof Sys2Proof.Machine

/-! ### The step, decoding and encoding -/

/-- When the host's next input is a command whose record decodes to `i`, the step is `exec` of `i` on
the state with that input taken. That inputs stand in a list of the state is the model's (log 1). -/
def Obligations.StepRunsIssuedCommand : Prop :=
  ∀ (s : State) (c : CommandRecord) (rest : List Input) (i : Instr),
    s.port = .command c :: rest → decodeCommand c = .ok i →
      step s = exec i { s with port := rest }

/-- When a `Step` command is issued and `0 <= PC < L`, the step is `exec` of the instruction the
opcode byte at `PC` decodes to, on the state with the input taken and `PC` past that byte
(43_thread.md R242, R243). That `exec` of an opcode row is the dispatch arm is the model's (log 25). -/
def Obligations.StepRunsOpcodeAtPc : Prop :=
  ∀ (s : State) (c : CommandRecord) (rest : List Input),
    s.port = .command c :: rest → c.cmd = 0x38 → 0 ≤ s.pc.toInt → s.pc.toInt < s.length →
      step s = exec (decodeOpcode (s.buf.byteAt s.pc.toNat)).toInstr
        { s with port := rest, pc := s.pc + 1 }

/-- A command record whose select code R95 does not list is refused, and every listed code is a
command (30_encoding.md R95; 93_implementation_defined.md U12). -/
def Obligations.ExactlyTheListedCodesAreCommands : Prop :=
  ∀ (s : State) (c : CommandRecord) (rest : List Input), s.port = .command c :: rest →
    (c.cmd.toNat ∉ commandCodes → step s = .refused (.notACommand c.cmd)) ∧
    (c.cmd.toNat ∈ commandCodes → ∃ i, decodeCommand c = .ok i)

/-- Words written out from the opcode map and the table of command codes. -/
def Obligations.SampleWordsDecode : Prop :=
  decode (.opcode 0x00) = .ok .noOp ∧
  decode (.opcode 0x2A) = .ok (.undefined203F 0x0A) ∧
  decode (.opcode 0xFF) = .ok (.undefined80FF 0x7F) ∧
  decode (.command { cmd := 0x03, a := 5 }) = .ok (.fetchU24 5) ∧
  decode (.command { cmd := 0x09, a := 7, b := 2 }) = .ok (.fetchN 7 2) ∧
  decode (.command { cmd := 0x19, b := 3 }) = .ok (.fetchSigned 3) ∧
  decode (.command { cmd := 0x29, a := 0x100 }) = .ok (.writeVarInt 0x100) ∧
  decode (.command { cmd := 0x31, a := 257, kindA := 3, kindT := 0 }) =
    .ok (.downcast (.kind .uint64) 257 (.kind .uint8)) ∧
  decode (.command { cmd := 0x3A, a := 4 }) = .ok (.runFor 4)

/-- The decode of the opcode byte is total: 0x00 is `NoOp`, anything else one of the undefined rows,
and no bit of the byte is lost (30_encoding.md R81, R87). -/
def Obligations.OpcodeBytesDecodeExactly : Prop :=
  ∀ b : Byte, encode (decodeOpcode b).toInstr = .opcode b ∧ (decodeOpcode b = .noOp ↔ b = 0)

/-- Decoding the encoding of a well-formed instruction gives the instruction back, with every operand
at every value (30_encoding.md R87, R89, R95). That the buffer of a `Construct` travels in the
command record is the model's (log 12). -/
def Obligations.EncodedInstructionDecodesBack : Prop :=
  ∀ i : Instr, i.wf = true → decode (encode i) = .ok i

/-! ### Reset and construction -/

/-- The values after a hardware reset, and that a reset during a run touches neither the sink nor
what is to come at the inputs (70_reset_and_hazards.md R340; that a reset is an input is log 1).
Nothing is said of `MACHINE_REF`, which is unspecified. -/
def Obligations.ResetGivesTheEmptyThread : Prop :=
  ∀ (s : State) (rest : List Input), s.port = .reset :: rest →
    ∃ t, step s = .next t ∧ t.pc = 0 ∧ t.stack = [] ∧ t.len = 0 ∧ t.buf = [] ∧
      t.sink = s.sink ∧ t.sinkAnswers = s.sinkAnswers ∧ t.port = rest

/-- The table of reset values: after reset, after `Construct`, the sink touched by neither; and a
`Step` straight after reset fails with `BytecodeOverflow` (10_state.md R34). -/
def Obligations.ResetAndConstructValues : Prop :=
  (State.reset.pc = 0 ∧ State.reset.stack = [] ∧ State.reset.len = 0 ∧ State.reset.buf = []) ∧
  exec .step State.reset = .next (State.reset.raise .bytecodeOverflow) ∧
  (∀ s : State, s.hardReset.sink = s.sink) ∧
  ∀ (s : State) (buffer : List Byte) (pc0 ref : Word), buffer.length ≤ maxBufferLength →
    ∃ t, exec (.construct buffer pc0 ref) s = .next t ∧ t.pc = pc0 ∧ t.stack = [] ∧
      t.length = buffer.length ∧ (∀ i, i < buffer.length → t.buf.byteAt i = buffer.getD i 0) ∧
      t.machineRef = ref ∧ t.sink = s.sink

/-- `Construct` replaces the whole thread state and nothing else: the next state is the old one with
the buffer, `L`, `PC`, the empty stack, the reference and the response of a success. The buffer reads
as the sequence given, every other index is not addressable, and `pc0` is not checked
(43_thread.md R240). A buffer longer than 2^63 - 1 bytes is refused: the model's reading of the
bound on `L` (log 12). -/
def Obligations.ConstructReplacesTheThread : Prop :=
  ∀ (s : State) (buffer : List Byte) (pc0 ref : Word),
    (buffer.length ≤ maxBufferLength →
      ∃ t, exec (.construct buffer pc0 ref) s = .next t ∧
        t = { s with
          pc := pc0, stack := [], buf := t.buf, len := BitVec.ofNat 64 buffer.length
          machineRef := ref, response := okResponse } ∧
        (∀ i : Nat, t.readByte i = buffer[i]?) ∧ ∀ a : Int, a < 0 → t.readByte a = none) ∧
    (maxBufferLength < buffer.length →
      exec (.construct buffer pc0 ref) s = .refused (.bufferTooLong buffer.length))

/-! ### Invariants -/

/-- The invariant holds after reset (10_state.md R29, R34; the canonical form is log 13). -/
def Obligations.InvariantHoldsAtReset : Prop := State.reset.Inv

/-- Every step keeps the invariant, from every state that has it: the buffer stays in canonical form
and inside its length, and the length stays at most 2^63 - 1 (10_state.md R29; 00_scope.md R8; the
canonical form is log 13). -/
def Obligations.EveryStepKeepsTheInvariant : Prop :=
  ∀ s t : State, s.Inv → step s = .next t → t.Inv

/-- No step but a `Construct` moves `PC` out of `0..L` (10_state.md R22, 90_conflicts.md C10). -/
def Obligations.PcStaysInRange : Prop :=
  ∀ s t : State, s.Inv → s.pcInRange →
    (∀ c rest, s.port = .command c :: rest → c.cmd ≠ 0x3F) → step s = .next t → t.pcInRange

/-- No step pushes, pops or otherwise changes `STACK`, except that a reset and a `Construct` empty it;
so it is empty after reset and stays empty, and `DEPTH` then reads 0. Whatever the capacity
`STACK_DEPTH` is, the stack is within it after reset and stays within it (10_state.md R26 to R28,
R34; that the capacity is an opaque constant is log 22). -/
def Obligations.StackStaysEmpty : Prop :=
  (State.reset.stack = [] ∧ State.reset.stackFits) ∧
  (∀ s t : State, step s = .next t →
    t.stack = s.stack ∨ t.stack = [] ∧ s.replacesThread) ∧
  (∀ s t : State, s.replacesThread → step s = .next t → t.stack = []) ∧
  (∀ s t : State, s.stackFits → step s = .next t → t.stackFits) ∧
  ∀ s t : State, s.stack = [] → step s = .next t → t.stack = [] ∧ t.readRegister .depth = 0

/-- A command without a row in the table of `PC` writes never writes `PC` (10_state.md R23). -/
def Obligations.OnlyTheListedCommandsWritePc : Prop :=
  ∀ (i : Instr) (s t : State), writesPc i = false → exec i s = .next t → t.pc = s.pc

/-- No command but `Construct` changes the buffer or its length: every index reads as before
(20_memory.md R61, 10_state.md R29). -/
def Obligations.BufferIsImmutable : Prop :=
  ∀ (i : Instr) (s t : State), isConstruct i = false → exec i s = .next t →
    t.buf = s.buf ∧ t.len = s.len ∧ ∀ a : Int, t.readByte a = s.readByte a

/-- What the sink has taken stays: every step only appends to it, and at most 8 bytes
(10_state.md R31, 20_memory.md R52, R58, R60). -/
def Obligations.SinkOnlyGrows : Prop :=
  ∀ s t : State, step s = .next t →
    ∃ bs : List Byte, t.sink = s.sink ++ bs ∧ bs.length ≤ 8

/-- No step faults: every command tests its bounds before it reads, so no access leaves `0..L-1`
(10_state.md R29, 20_memory.md R54). -/
def Obligations.NoStepFaults : Prop :=
  ∀ (s : State) (f : Fault), step s ≠ .fault f

/-- Errors are not latched: what a command does depends in no way on the response before it
(60_exceptions.md R310, 10_state.md R20). -/
def Obligations.ErrorsAreNotSticky : Prop :=
  ∀ (i : Instr) (s : State) (r : Response), exec i (s.respond r) = exec i s

/-- `MACHINE_REF` is read by no command and changed by none but `Construct` (10_state.md R33). -/
def Obligations.MachineRefIsOpaque : Prop :=
  ∀ (i : Instr) (s : State) (ref : Word), isConstruct i = false →
    exec i (s.withMachineRef ref) = mapNext (fun t => t.withMachineRef ref) (exec i s)

/-! ### Frames -/

/-- The commands that reach neither `PC` nor the sink, and the opcode arms, change nothing but the
response; the two conversions may also use up one free value. Every register, the stack, the sink and
every byte of the buffer are as before (40_unsigned_codec.md and 42_value_types.md, their openings;
44_opcodes.md R270, R271 for the arms). That an opcode row is its arm alone is the model's (log 25),
and so is the counter of free values (log 21). -/
def Obligations.PureCommandsChangeOnlyTheResponse : Prop :=
  ∀ (i : Instr) (s t : State), writesPc i = false → writesSink i = false → exec i s = .next t →
    (∀ a : Int, t.readByte a = s.readByte a) ∧
    (t = { s with response := t.response } ∨
      (mayDrawNaN i = true ∧ t = { s with response := t.response, draws := s.draws + 1 }))

/-- The thread-level fetches and `Step`, `Run`, `RunFor` change nothing but `PC` and the response:
the stack, the sink, the other registers and every byte of the buffer are as before
(41_signed_decoder.md R160, 43_thread.md R245). -/
def Obligations.ThreadCommandsChangeOnlyPcAndResponse : Prop :=
  ∀ (i : Instr) (s t : State), writesPc i = true → isConstruct i = false → exec i s = .next t →
    (∀ a : Int, t.readByte a = s.readByte a) ∧
    t = { s with pc := t.pc, response := t.response }

/-- The writers change nothing but the sink and the response, and use up one answer of the sink:
every register, the stack and every byte of the buffer are as before (40_unsigned_codec.md R130).
That the sink's answers are a list of the state and then free values is the model's (log 5), and so
is the counter of free values (log 21). -/
def Obligations.WritersChangeOnlyTheSinkAndResponse : Prop :=
  ∀ (i : Instr) (s t : State), writesSink i = true → exec i s = .next t →
    (∀ a : Int, t.readByte a = s.readByte a) ∧
    t = { s with
      sink := t.sink, response := t.response
      sinkAnswers := s.sinkAnswers.tail
      draws := if s.sinkAnswers.isEmpty then s.draws + 1 else s.draws }

/-! ### Unsigned fetches -/

/-- In bounds each of the eight `FetchU` commands returns the big-endian number of its bytes, below
`2^(8k)`, and the cursor moved past them; the thread is untouched (40_unsigned_codec.md R110 to
R118). -/
def Obligations.FetchUReadsBigEndian : Prop :=
  ∀ (s : State) (pc : Word) (k : Nat) (i : Instr), (k, i) ∈ fetchUForms pc →
    0 ≤ pc.toInt → pc.toInt + k ≤ s.length →
      s.buf.number pc.toNat k < 2 ^ (8 * k) ∧
      exec i s = .next (s.respond { okResponse with
        res := BitVec.ofNat 64 (s.buf.number pc.toNat k)
        res2 := BitVec.ofInt 64 (pc.toInt + k) })

/-- Out of bounds each of the eight `FetchU` commands fails with `NotEnoughBytes{k}` and returns the
cursor unchanged (40_unsigned_codec.md R110, R119). That the unchanged cursor comes on `res2` is the
model's reading (log 11). -/
def Obligations.FetchUOutOfBoundsFails : Prop :=
  ∀ (s : State) (pc : Word) (k : Nat) (i : Instr), (k, i) ∈ fetchUForms pc →
    ¬ (0 ≤ pc.toInt ∧ pc.toInt + k ≤ s.length) →
      exec i s = .next (s.raiseAt pc (.notEnoughBytes (BitVec.ofNat 64 k)))

/-- `FetchN`, every case in the order of its tests, with `ZERO_FETCH_OOB = fail`
(40_unsigned_codec.md R120; the parameter's value is the spec's default, log 8; the cursor on `res2`
of a failure is log 11). -/
def Obligations.FetchNTestsInOrder : Prop :=
  ∀ (s : State) (pc count : Word),
    exec (.fetchN pc count) s = .next
      (if count.toInt < 0 then s.raiseAt pc .fetchUnderflow
      else if 8 < count.toInt then s.raiseAt pc .fetchOverflow
      else if 0 ≤ pc.toInt ∧ pc.toInt + count.toInt ≤ s.length then
        s.respond { okResponse with
          res := BitVec.ofNat 64 (s.buf.number pc.toNat count.toNat)
          res2 := BitVec.ofInt 64 (pc.toInt + count.toInt) }
      else s.raiseAt pc (.notEnoughBytes count))

/-- `FetchN(pc, k)` and `FetchU<8k>(pc)` agree in every state, success or failure, cursor and value
(40_unsigned_codec.md R121). -/
def Obligations.FetchNAgreesWithFetchU : Prop :=
  ∀ (s : State) (pc : Word) (k : Nat) (i : Instr), (k, i) ∈ fetchUForms pc →
    exec (.fetchN pc (BitVec.ofNat 64 k)) s = exec i s

/-- A wide read is its earlier part above its later part (20_memory.md R51). -/
def Obligations.WideReadSplits : Prop :=
  ∀ (s : State) (pc : Int) (n j : Nat), 0 < j → j < n → n ≤ 8 → s.inBounds pc n = true →
    ∃ high low, s.memRead pc j = some high ∧ s.memRead (pc + j) (n - j) = some low ∧
      s.memRead pc n = some (high * 2 ^ (8 * (n - j)) + low)

/-! ### Signed fetches and dispatchers -/

/-- In bounds each of the eight `FetchI` commands delivers its bytes as a two's-complement number
(sign-extended on the port) and advances `PC` by its byte count (41_signed_decoder.md R160 to
R168). -/
def Obligations.FetchIReadsTwosComplement : Prop :=
  ∀ (s : State) (k : Nat) (i : Instr), (k, i) ∈ fetchIForms →
    0 ≤ s.pc.toInt → s.pc.toInt + k ≤ s.length →
      exec i s = .next ((s.setPc (BitVec.ofInt 64 (s.pc.toInt + k))).respond { okResponse with
        res := BitVec.ofInt 64 (twosComplement k (s.buf.number s.pc.toNat k))
        res2 := BitVec.ofInt 64 (s.pc.toInt + k) })

/-- Out of bounds each of the eight `FetchI` commands fails with `NotEnoughBytes{k}` and leaves `PC`
and everything but the response as it was (41_signed_decoder.md R160, 60_exceptions.md R301). That
`res2` is zero after the failure is the model's reading (log 11). -/
def Obligations.FetchIOutOfBoundsFails : Prop :=
  ∀ (s : State) (k : Nat) (i : Instr), (k, i) ∈ fetchIForms →
    ¬ (0 ≤ s.pc.toInt ∧ s.pc.toInt + k ≤ s.length) →
      exec i s = .next (s.raise (.notEnoughBytes (BitVec.ofNat 64 k)))

/-- The sign-extension masks have exactly the bits the table says, and the mask procedure gives the
two's-complement value of every `k`-byte number (41_signed_decoder.md R169). -/
def Obligations.SignMasksExtendTheSign : Prop :=
  (∀ j, j < 32 → (0x00800000 : BitVec 32).getLsbD j = decide (j = 23) ∧
    (0xFF000000 : BitVec 32).getLsbD j = decide (24 ≤ j)) ∧
  (∀ j, j < 64 → (0x0000008000000000 : Word).getLsbD j = decide (j = 39) ∧
    (0xFFFFFF0000000000 : Word).getLsbD j = decide (40 ≤ j) ∧
    (0x0000800000000000 : Word).getLsbD j = decide (j = 47) ∧
    (0xFFFF000000000000 : Word).getLsbD j = decide (48 ≤ j) ∧
    (0x0080000000000000 : Word).getLsbD j = decide (j = 55) ∧
    (0xFF00000000000000 : Word).getLsbD j = decide (56 ≤ j)) ∧
  (∀ u, u < 2 ^ 24 →
    (applySignMasks (BitVec.ofNat 32 u) 0x00800000 0xFF000000).toInt = twosComplement 3 u) ∧
  (∀ u, u < 2 ^ 40 → (applySignMasks (BitVec.ofNat 64 u)
    0x0000008000000000 0xFFFFFF0000000000).toInt = twosComplement 5 u) ∧
  (∀ u, u < 2 ^ 48 → (applySignMasks (BitVec.ofNat 64 u)
    0x0000800000000000 0xFFFF000000000000).toInt = twosComplement 6 u) ∧
  (∀ u, u < 2 ^ 56 → (applySignMasks (BitVec.ofNat 64 u)
    0x0080000000000000 0xFF00000000000000).toInt = twosComplement 7 u)

/-- `FetchSigned` fails with `InvalidImmediateSize{count}` outside 1..8, before any bounds test, and
routes to the matching width function inside; in bounds it delivers the signed number, sign-extended
to 64 bits (the spec's decision D8), and advances `PC` (41_signed_decoder.md R160, R170). That `res2`
is zero after a failure is the model's reading (log 11). -/
def Obligations.FetchSignedDispatches : Prop :=
  ∀ (s : State) (count : Word),
    (count.toInt < 1 ∨ 8 < count.toInt →
      exec (.fetchSigned count) s = .next (s.raise (.invalidImmediateSize count))) ∧
    (∀ k i, (k, i) ∈ fetchIForms → count.toInt = k → exec (.fetchSigned count) s = exec i s) ∧
    (1 ≤ count.toInt → count.toInt ≤ 8 → 0 ≤ s.pc.toInt → s.pc.toInt + count.toInt ≤ s.length →
      exec (.fetchSigned count) s =
        .next ((s.setPc (BitVec.ofInt 64 (s.pc.toInt + count.toInt))).respond { okResponse with
          res := BitVec.ofInt 64 (twosComplement count.toNat (s.buf.number s.pc.toNat count.toNat))
          res2 := BitVec.ofInt 64 (s.pc.toInt + count.toInt) }))

/-- `FetchUnsigned`: the size first, then the bounds, then the number and `PC` advanced
(41_signed_decoder.md R171). That `res2` is zero after a failure is the model's reading
(log 11). -/
def Obligations.FetchUnsignedDispatches : Prop :=
  ∀ (s : State) (count : Word),
    exec (.fetchUnsigned count) s = .next
      (if count.toInt < 1 ∨ 8 < count.toInt then s.raise (.invalidImmediateSize count)
      else if 0 ≤ s.pc.toInt ∧ s.pc.toInt + count.toInt ≤ s.length then
        (s.setPc (BitVec.ofInt 64 (s.pc.toInt + count.toInt))).respond { okResponse with
          res := BitVec.ofNat 64 (s.buf.number s.pc.toNat count.toNat)
          res2 := BitVec.ofInt 64 (s.pc.toInt + count.toInt) }
      else s.raise (.notEnoughBytes count))

/-- The signed and the unsigned fetch of `k` bytes succeed or fail together and move `PC` alike; on
success the signed result is the unsigned one, less `2^(8k)` when that is at least `2^(8k-1)`, so it
is the unsigned one modulo `2^(8k)` (41_signed_decoder.md R172). -/
def Obligations.SignedAndUnsignedReadingsAgree : Prop :=
  ∀ (s : State) (k : Nat) (i : Instr), (k, i) ∈ fetchIForms →
    ∃ t u, exec i s = .next t ∧ exec (.fetchUnsigned (BitVec.ofNat 64 k)) s = .next u ∧
      t.pc = u.pc ∧ t.response.status = u.response.status ∧
      (t.response.status = 0 →
        t.response.res.toInt =
          (if 2 ^ (8 * k - 1) ≤ u.response.res.toNat
            then (u.response.res.toNat : Int) - 2 ^ (8 * k) else u.response.res.toNat) ∧
        t.response.res.toInt % 2 ^ (8 * k) = u.response.res.toNat)

/-! ### Writers and minimal width -/

/-- Each of the eight writers offers the low `k` bytes of its operand, most significant first, in one
transaction; the sink takes the first `m <= k` of them; `m` is returned, with `SinkError{e}` when the
sink answers an error `e` (40_unsigned_codec.md R130, 20_memory.md R60). How the answer is drawn is
log 5. -/
def Obligations.WritersOfferTheirBytes : Prop :=
  ∀ (s : State) (value : Word) (k : Nat) (i : Instr), (k, i) ∈ writeUForms value →
    ∃ t m, exec i s = .next t ∧ m = min s.sinkAnswer.count k ∧
      t.sink = s.sink ++ (offeredBytes k value).take m ∧
      (s.sinkAnswer.error = none →
        t.response = { okResponse with res2 := BitVec.ofNat 64 m }) ∧
      (∀ e, s.sinkAnswer.error = some e →
        t.response = { errorResponse (.sinkError e) with res2 := BitVec.ofNat 64 m })

/-- `WriteVarInt` is the writer of the least width that holds the value; it offers that many bytes
(40_unsigned_codec.md R140, 30_encoding.md R85). Where the sink's answer stands, and that a count
above the bytes offered counts as all of them, is the model's (log 5). -/
def Obligations.WriteVarIntPicksTheLeastWidth : Prop :=
  ∀ (s : State) (value : Word), ∃ k i t,
    (k, i) ∈ writeUForms value ∧ value.toNat ≤ 2 ^ (8 * k) - 1 ∧
    (∀ j, 1 ≤ j → value.toNat ≤ 2 ^ (8 * j) - 1 → k ≤ j) ∧
    exec (.writeVarInt value) s = exec i s ∧ exec (.writeVarInt value) s = .next t ∧
    t.sink = s.sink ++ (offeredBytes k value).take (min s.sinkAnswer.count k)

/-- `UnsignedByteSize` returns the least `k` in 1..8 with `value <= 2^(8k) - 1`, and `WriteVarInt`
selects the same one of the eight fixed widths (30_encoding.md R85). -/
def Obligations.ByteSizeIsTheLeastWidth : Prop :=
  ∀ (s : State) (value : Word), ∃ k i, 1 ≤ k ∧ k ≤ 8 ∧ value.toNat ≤ 2 ^ (8 * k) - 1 ∧
    (∀ j, 1 ≤ j → value.toNat ≤ 2 ^ (8 * j) - 1 → k ≤ j) ∧
    exec (.unsignedByteSize value) s =
      .next (s.respond { okResponse with res := BitVec.ofNat 64 k }) ∧
    (k, i) ∈ writeUForms value ∧ exec (.writeVarInt value) s = exec i s

/-- `UnsignedByteSize` returns 1 for 0 and otherwise `ceil(bit_length(value)/8)`, the width
`WriteVarInt` writes (40_unsigned_codec.md R141). -/
def Obligations.ByteSizeIsBitLengthInBytes : Prop :=
  ∀ (s : State) (value : Word), ∃ k, 1 ≤ k ∧ k ≤ 8 ∧
    exec (.unsignedByteSize value) s =
      .next (s.respond { okResponse with res := BitVec.ofNat 64 k }) ∧
    (k : Int) = (if value = 0 then 1 else ⌈(Nat.size value.toNat : ℚ) / 8⌉) ∧
    ∃ i, (k, i) ∈ writeUForms value ∧ exec (.writeVarInt value) s = exec i s

/-- `UnsignedToBytes` returns the bytes `WriteVarInt` offers, their number on `res2`, the other lanes
zero; the first byte is not zero for a positive value (40_unsigned_codec.md R142). -/
def Obligations.ToBytesReturnsTheMinimalBytes : Prop :=
  ∀ (s : State) (value : Word), ∃ k i lanes,
    (k, i) ∈ writeUForms value ∧ exec (.writeVarInt value) s = exec i s ∧
    exec (.unsignedToBytes value) s =
      .next (s.respond { okResponse with res2 := BitVec.ofNat 64 k, lanes := lanes }) ∧
    lanesToList lanes = offeredBytes k value ++ List.replicate (8 - k) 0 ∧
    (value ≠ 0 → lanes.l0 ≠ 0)

/-- `UnsignedFromBytes` is the big-endian sum of its `k` bytes for `1 <= k <= 8` and has no meaning
for any other `k` (40_unsigned_codec.md R143). -/
def Obligations.FromBytesAssembles : Prop :=
  ∀ (s : State) (k : Word) (lanes : Lanes),
    exec (.unsignedFromBytes k lanes) s =
      if 1 ≤ k.toNat ∧ k.toNat ≤ 8 then
        .next (s.respond { okResponse with
          res := BitVec.ofNat 64 (sequenceNumber ((lanesToList lanes).take k.toNat)) })
      else .refused (.byteSequenceLength k)

/-- Fixed-width round trip: what `WriteU<8k>` writes to an ideal sink, bound in a buffer at any
index, `FetchU<8k>` reads back modulo `2^(8k)` (40_unsigned_codec.md R145). That the sink's answer
stands in the state is the model's (log 5), and so is the binding's form (log 12). -/
def Obligations.FixedWidthRoundTrip : Prop :=
  ∀ (s : State) (value ref : Word) (k : Nat) (i j : Instr) (before after : List Byte),
    (k, i) ∈ writeUForms value → (k, j) ∈ fetchUForms (BitVec.ofNat 64 before.length) →
    s.sinkAnswer.error = none → k ≤ s.sinkAnswer.count →
    before.length + k + after.length ≤ maxBufferLength →
      ∃ written t u w, exec i s = .next t ∧ t.sink = s.sink ++ written ∧
        t.response = { okResponse with res2 := BitVec.ofNat 64 k } ∧
        exec (.construct (before ++ written ++ after) 0 ref) t = .next u ∧ exec j u = .next w ∧
        w.response = { okResponse with
          res := BitVec.ofNat 64 (value.toNat % 2 ^ (8 * k))
          res2 := BitVec.ofNat 64 (before.length + k) }

/-- Minimal-width round trip: with an ideal sink `WriteVarInt` writes `UnsignedByteSize` bytes, and
the fetch of that width gives the value back with the cursor past them; and `UnsignedFromBytes`
undoes `UnsignedToBytes` (40_unsigned_codec.md R144). That the sink's answer stands in the state is
the model's (log 5), and so is the binding's form (log 12). -/
def Obligations.MinimalWidthRoundTrip : Prop :=
  (∀ (s : State) (value ref : Word) (before after : List Byte),
    s.sinkAnswer.error = none → 8 ≤ s.sinkAnswer.count →
    before.length + 8 + after.length ≤ maxBufferLength →
      ∃ k j written t u w z, (k, j) ∈ fetchUForms (BitVec.ofNat 64 before.length) ∧
        exec (.writeVarInt value) s = .next t ∧ t.sink = s.sink ++ written ∧
        exec (.unsignedByteSize value) s = .next z ∧
        t.response.res2 = z.response.res ∧ z.response.res = BitVec.ofNat 64 k ∧
        written.length = k ∧
        exec (.construct (before ++ written ++ after) 0 ref) t = .next u ∧ exec j u = .next w ∧
        w.response = { okResponse with
          res := value, res2 := BitVec.ofNat 64 (before.length + k) }) ∧
  ∀ (s : State) (value : Word), ∃ t u, exec (.unsignedToBytes value) s = .next t ∧
    exec (.unsignedFromBytes t.response.res2 t.response.lanes) t = .next u ∧
    u.response = { okResponse with res := value }

/-! ### Kinds and conversions -/

/-- `KindInfo` returns the kind and its byte size for the ten numeric kinds and is refused for a
reserved kind and for a tag that is no kind (42_value_types.md R196). -/
def Obligations.KindInfoReturnsTheSize : Prop :=
  ∀ s : State,
    (∀ k n, (k, n) ∈ numericKinds →
      exec (.kindInfo (.kind k)) s =
        .next (s.respond { okResponse with rkind := k.tag, res := BitVec.ofNat 64 n })) ∧
    (∀ k, k ∈ reservedKinds →
      exec (.kindInfo (.kind k)) s = .refused (.kindInfoOperand (.kind k))) ∧
    ∀ n, exec (.kindInfo (.unassigned n)) s = .refused (.kindInfoOperand (.unassigned n))

/-- `Upcast` of an unsigned kind is the same number as `Uint64`, of a signed kind the same number as
`Int64`, of `Float64` the same 64 bits; payload bits above the kind's width are ignored
(42_value_types.md R200 to R207, R209; 30_encoding.md R90). -/
def Obligations.UpcastKeepsTheNumber : Prop :=
  ∀ (s : State) (p : Word),
    (∀ k w, (k, w) ∈ unsignedKinds →
      exec (.upcast (.kind k) p) s = .next (s.respond { okResponse with
        rkind := Kind.tag .uint64, res := BitVec.ofNat 64 (p.toNat % 2 ^ w) })) ∧
    (∀ k w, (k, w) ∈ signedKinds →
      exec (.upcast (.kind k) p) s = .next (s.respond { okResponse with
        rkind := Kind.tag .int64, res := BitVec.ofInt 64 (Int.bmod p.toNat (2 ^ w)) })) ∧
    exec (.upcast (.kind .float64) p) s = .next (s.respond { okResponse with
      rkind := Kind.tag .float64, res := p })

/-- `Upcast` of a `Float32` that is no NaN is the binary64 pattern of the same number and sign;
infinities stay infinities (42_value_types.md R208). The formats are presumed (log 10). -/
def Obligations.UpcastFloat32IsExact : Prop :=
  ∀ (s : State) (p : Word) (f : Nat), f = p.toNat % 2 ^ 32 → binary32.isNaN f = false →
    ∃ g, exec (.upcast (.kind .float32) p) s = .next (s.respond { okResponse with
        rkind := Kind.tag .float64, res := BitVec.ofNat 64 g }) ∧
      g < 2 ^ 64 ∧ binary64.sign g = binary32.sign f ∧
      (binary32.isFinite f = true →
        binary64.isFinite g = true ∧ binary64.value g = binary32.value f) ∧
      (binary32.isInf f = true → binary64.isInf g = true)

/-- A NaN operand of a float-to-float conversion gives some NaN of the target, without an error: the
statement says no more of its bits, which are a free value (42_value_types.md R193; log 6). -/
def Obligations.NaNConvertsToSomeNaN : Prop :=
  ∀ (s : State) (p : Word),
    (binary32.isNaN (p.toNat % 2 ^ 32) = true →
      ∃ g, exec (.upcast (.kind .float32) p) s = .next (s.draw.respond { okResponse with
          rkind := Kind.tag .float64, res := BitVec.ofNat 64 g }) ∧
        g < 2 ^ 64 ∧ binary64.isNaN g = true) ∧
    (binary64.isNaN p.toNat = true →
      ∃ g, exec (.downcast (.kind .float64) p (.kind .float32)) s =
          .next (s.draw.respond { okResponse with
            rkind := Kind.tag .float32, res := BitVec.ofNat 64 g }) ∧
        g < 2 ^ 32 ∧ binary32.isNaN g = true)

/-- `Upcast` of a reserved kind or of a tag that is no kind, and `Downcast` of a source that is no
StackValue, whatever the target, have no meaning (42_value_types.md R199, R227). -/
def Obligations.CastsOutsideTheDomainAreRefused : Prop :=
  ∀ (s : State) (p : Word) (source target : KindTag),
    ((∀ k n, (k, n) ∈ numericKinds → source ≠ .kind k) →
      exec (.upcast source p) s = .refused (.upcastOperand source)) ∧
    ((∀ c, source ≠ .kind (canonicalKind c)) →
      exec (.downcast source p target) s = .refused (.downcastOperand source))

/-- Downcast identity (42_value_types.md R211). -/
def Obligations.DowncastToSelfIsIdentity : Prop :=
  ∀ (s : State) (c : CanonicalKind) (p : Word),
    exec (.downcast (.kind (canonicalKind c)) p (.kind (canonicalKind c))) s =
      .next (s.respond { okResponse with rkind := (canonicalKind c).tag, res := p })

/-- `Downcast` of a StackValue to a reserved kind, or to a tag that is no kind, always fails with
`CastError{from, to}`, whatever the value (42_value_types.md R224, R225). The error for a tag that is
no kind is the spec's decision D16, and that it carries the tag's number is the model's reading
(log 14). -/
def Obligations.DowncastToReservedFails : Prop :=
  ∀ (s : State) (c : CanonicalKind) (p : Word),
    (∀ k, k ∈ reservedKinds →
      exec (.downcast (.kind (canonicalKind c)) p (.kind k)) s =
        .next (s.raise (.castError (canonicalKind c) (.kind k)))) ∧
    ∀ n, exec (.downcast (.kind (canonicalKind c)) p (.unassigned n)) s =
      .next (s.raise (.castError (canonicalKind c) (.unassigned n)))

/-- Integer to integer: the payload of `x mod 2^N`, for every integer source and target
(42_value_types.md R212 to R215, R226). -/
def Obligations.IntegerDowncastWraps : Prop :=
  ∀ (s : State) (c : CanonicalKind) (p : Word) (x : Int) (k : Kind) (w : Nat),
    integerOf c p = some x → (k, w) ∈ integerKinds →
      exec (.downcast (.kind (canonicalKind c)) p (.kind k)) s =
        .next (s.respond { okResponse with rkind := k.tag, res := BitVec.ofInt 64 (x % 2 ^ w) })

/-- Integer to float: the finite pattern nearest to the exact integer, ties to the even significand,
in one rounding; zero is +0; never an infinity (42_value_types.md R192, R216 to R219). The formats
and the rounding are presumed (log 10). -/
def Obligations.IntegerToFloatRoundsToNearest : Prop :=
  ∀ (s : State) (c : CanonicalKind) (p : Word) (x : Int) (k : Kind) (f : FloatFormat),
    integerOf c p = some x → (k, f) ∈ floatKinds →
      ∃ r, exec (.downcast (.kind (canonicalKind c)) p (.kind k)) s =
          .next (s.respond { okResponse with rkind := k.tag, res := BitVec.ofNat 64 r }) ∧
        f.RoundsTo x r ∧ (x = 0 → r = 0)

/-- `Float64` to `Float32`: a finite operand below the overflow threshold gives the nearest finite
pattern, ties to even, of the operand's sign; at or above it, and for an infinity, the infinity of
the operand's sign (42_value_types.md R192, R220). The formats and the rounding are presumed
(log 10). -/
def Obligations.Float64ToFloat32RoundsToNearest : Prop :=
  ∀ (s : State) (p : Word), binary64.isNaN p.toNat = false →
    ∃ r, exec (.downcast (.kind .float64) p (.kind .float32)) s =
        .next (s.respond { okResponse with
          rkind := Kind.tag .float32, res := BitVec.ofNat 64 r }) ∧
      r < 2 ^ 32 ∧ binary32.sign r = binary64.sign p.toNat ∧
      (binary64.isFinite p.toNat = true → |binary64.value p.toNat| < binary32Threshold →
        binary32.RoundsTo (binary64.value p.toNat) r) ∧
      (binary64.isInf p.toNat = true ∨ binary32Threshold ≤ |binary64.value p.toNat| →
        binary32.isInf r = true)

/-- Float to integer, finite operand: truncation toward zero, then modulo `2^N`, for every integer
target (42_value_types.md R221, R222). The format is presumed (log 10), and the range beyond 64 bits
is unverified (log 24). -/
def Obligations.FloatToIntegerTruncatesAndWraps : Prop :=
  ∀ (s : State) (p : Word) (k : Kind) (w : Nat), (k, w) ∈ integerKinds →
    binary64.isFinite p.toNat = true →
      exec (.downcast (.kind .float64) p (.kind k)) s =
        .next (s.respond { okResponse with
          rkind := k.tag, res := BitVec.ofInt 64 (truncRat (binary64.value p.toNat) % 2 ^ w) })

/-- Float to integer, NaN or infinity: no error, a value of the target's width that is a function of
the operand and the target alone, the same in every state; which value is free
(42_value_types.md R223; log 7). -/
def Obligations.NonFiniteToIntegerIsAFunction : Prop :=
  ∀ (p : Word) (k : Kind) (w : Nat), (k, w) ∈ integerKinds → binary64.isFinite p.toNat = false →
    ∃ v : Word, v.toNat < 2 ^ w ∧ ∀ s : State,
      exec (.downcast (.kind .float64) p (.kind k)) s =
        .next (s.respond { okResponse with rkind := k.tag, res := v })

/-- Upcast then downcast to the own kind is the identity on every numeric value that is no NaN, and
gives some NaN for a `Float32` NaN (42_value_types.md R228). The formats are presumed (log 10), and
which NaN it is is free (log 6). -/
def Obligations.UpcastThenDowncastIsIdentity : Prop :=
  ∀ (s : State) (k : Kind) (n : Nat) (p : Word), (k, n) ∈ numericKinds → p.toNat < 2 ^ (8 * n) →
    ∃ t u, exec (.upcast (.kind k) p) s = .next t ∧
      exec (.downcast (decodeKindTag t.response.rkind) t.response.res (.kind k)) t = .next u ∧
      u.response.status = 0 ∧ u.response.rkind = k.tag ∧
      (¬ (k = .float32 ∧ binary32.isNaN p.toNat = true) → u.response.res = p) ∧
      (k = .float32 ∧ binary32.isNaN p.toNat = true →
        binary32.isNaN u.response.res.toNat = true)

/-! ### Opcodes and the thread -/

/-- `NoOp` does nothing and succeeds; every other opcode row fails with `OperationUndefined`, alike
for all of its bytes (44_opcodes.md R270, R271; that these are the arms entered after `PC` has
advanced is log 25). -/
def Obligations.OpcodeArms : Prop :=
  ∀ s : State, exec .noOp s = .next (s.respond okResponse) ∧
    ∀ o : Opcode, o ≠ .noOp → exec o.toInstr s = .next (s.raise .operationUndefined)

/-- `Step`: out of range `BytecodeOverflow` with nothing changed; in range `PC` advances by 1 before
dispatch, and the step succeeds if the byte is 0x00 and fails with `OperationUndefined` otherwise
(43_thread.md R242 to R244). -/
def Obligations.StepOutcomes : Prop :=
  ∀ s : State, exec .step s = .next
    (if s.pc.toInt < 0 ∨ (s.length : Int) ≤ s.pc.toInt then s.raise .bytecodeOverflow
    else if s.buf.byteAt s.pc.toNat = 0 then
      (s.setPc (BitVec.ofInt 64 (s.pc.toInt + 1))).respond okResponse
    else (s.setPc (BitVec.ofInt 64 (s.pc.toInt + 1))).raise .operationUndefined)

/-- The byte `OPID` gives a named opcode is an undefined opcode: `Step` fails with
`OperationUndefined` and `PC` one past it, and the stack is unchanged (44_opcodes.md R272). That no
named opcode has the byte 0x00 is read from the enumeration (log 18). -/
def Obligations.NamedOpcodesAreUndefined : Prop :=
  ∀ (s : State) (o : NamedOpcode), 0 ≤ s.pc.toInt → s.pc.toInt < s.length →
    s.buf.byteAt s.pc.toNat = opid o →
      exec .step s = .next ((s.setPc (s.pc + 1)).raise .operationUndefined)

/-- `Run` in closed form: out of range `BytecodeOverflow` at once; else `OperationUndefined` one past
the first byte that is not 0x00; else, if there is none, `BytecodeOverflow` with `PC = L`
(43_thread.md R246). The premise is the length the spec admits. -/
def Obligations.RunClosedForm : Prop :=
  ∀ s : State, s.length ≤ maxBufferLength →
    (s.pc.toInt < 0 ∨ (s.length : Int) ≤ s.pc.toInt →
      exec .run s = .next (s.raise .bytecodeOverflow)) ∧
    (∀ p j : Nat, s.pc.toInt = p → p ≤ j → j < s.length → s.buf.byteAt j ≠ 0 →
      (∀ i, p ≤ i → i < j → s.buf.byteAt i = 0) →
        exec .run s = .next ((s.setPc (BitVec.ofNat 64 (j + 1))).raise .operationUndefined)) ∧
    (∀ p : Nat, s.pc.toInt = p → p < s.length →
      (∀ i, p ≤ i → i < s.length → s.buf.byteAt i = 0) →
        exec .run s = .next ((s.setPc s.len).raise .bytecodeOverflow))

/-- `Run` never succeeds: it ends in one of the three ways the end of a run is defined by
(43_thread.md R246, 70_reset_and_hazards.md R343). -/
def Obligations.RunAlwaysEnds : Prop :=
  ∀ s : State, s.length ≤ maxBufferLength →
    ∃ t, exec .run s = .next t ∧ (t.endedNormally ∨ t.endedInFault ∨ t.neverStarted)

/-- `RunFor` in closed form: no step for `n <= 0`, whatever `PC`; out of range `BytecodeOverflow`;
else with `z` the number of consecutive 0x00 bytes from `PC` on, success with `PC + n` for `n <= z`,
`BytecodeOverflow` with `PC = L` if they reach the end, else `OperationUndefined` one past the byte
that ends them (43_thread.md R247). The premise is the length the spec admits. -/
def Obligations.RunForClosedForm : Prop :=
  ∀ (s : State) (n : Word), s.length ≤ maxBufferLength →
    (n.toInt ≤ 0 → exec (.runFor n) s = .next (s.respond okResponse)) ∧
    (0 < n.toInt → ¬ s.pcInRange → exec (.runFor n) s = .next (s.raise .bytecodeOverflow)) ∧
    (∀ p z : Nat, 0 < n.toInt → s.pc.toInt = p → p + z ≤ s.length →
      (∀ i, p ≤ i → i < p + z → s.buf.byteAt i = 0) →
      (p + z < s.length → s.buf.byteAt (p + z) ≠ 0) →
        exec (.runFor n) s = .next
          (if n.toInt ≤ z then (s.setPc (BitVec.ofInt 64 (p + n.toInt))).respond okResponse
          else if p + z = s.length then (s.setPc s.len).raise .bytecodeOverflow
          else (s.setPc (BitVec.ofNat 64 (p + z + 1))).raise .operationUndefined))
end

