-- ==== Sys2Proof/Laws/Bytes.lean ====
section
/-! SUPPORT. Big-endian assembly and disassembly. -/

namespace Sys2Proof.Machine

@[simp] theorem assembleBytes_nil : assembleBytes [] = 0 := rfl

theorem assembleBytes_append_singleton (bs : List Byte) (b : Byte) :
    assembleBytes (bs ++ [b]) = assembleBytes bs * 256 + b.toNat := by
  simp [assembleBytes]

/-- An earlier byte is more significant. -/
theorem assembleBytes_append (bs cs : List Byte) :
    assembleBytes (bs ++ cs) = assembleBytes bs * 2 ^ (8 * cs.length) + assembleBytes cs := by
  induction cs using List.reverseRecOn with
  | nil => simp
  | append_singleton cs c ih =>
    rw [← List.append_assoc, assembleBytes_append_singleton, ih, assembleBytes_append_singleton,
      List.length_append, List.length_singleton, Nat.mul_add, pow_add]
    ring

theorem assembleBytes_cons (b : Byte) (bs : List Byte) :
    assembleBytes (b :: bs) = b.toNat * 2 ^ (8 * bs.length) + assembleBytes bs := by
  simpa [assembleBytes] using assembleBytes_append [b] bs

/-- `n` bytes assemble to a number below `2^(8n)`. -/
theorem assembleBytes_lt (bs : List Byte) : assembleBytes bs < 2 ^ (8 * bs.length) := by
  induction bs with
  | nil => simp
  | cons b bs ih =>
    have hb : b.toNat + 1 ≤ 2 ^ 8 := b.isLt
    have : (b.toNat + 1) * 2 ^ (8 * bs.length) ≤ 2 ^ 8 * 2 ^ (8 * bs.length) :=
      Nat.mul_le_mul_right _ hb
    rw [assembleBytes_cons, List.length_cons, show 8 * (bs.length + 1) = 8 + 8 * bs.length by omega,
      pow_add]
    linarith

@[simp] theorem bytesOf_zero (v : Word) : bytesOf v 0 = [] := rfl

@[simp] theorem bytesOf_succ (v : Word) (k : Nat) :
    bytesOf v (k + 1) = v.extractLsb' (8 * k) 8 :: bytesOf v k := rfl

@[simp] theorem bytesOf_length (v : Word) (k : Nat) : (bytesOf v k).length = k := by
  induction k with
  | zero => rfl
  | succ k ih => simp [ih]

/-- The bytes written for a value assemble to the value modulo the width. -/
theorem assembleBytes_bytesOf (v : Word) (k : Nat) :
    assembleBytes (bytesOf v k) = v.toNat % 2 ^ (8 * k) := by
  induction k with
  | zero => simp [Nat.mod_one]
  | succ k ih =>
    rw [bytesOf_succ, assembleBytes_cons, ih, bytesOf_length, BitVec.extractLsb'_toNat,
      Nat.shiftRight_eq_div_pow, Nat.mul_add, pow_add, Nat.mod_mul]
    ring

/-- Assembly is the big-endian sum of the spec. -/
theorem assembleBytes_eq_sequenceNumber (bs : List Byte) : assembleBytes bs = sequenceNumber bs := by
  induction bs with
  | nil => rfl
  | cons b bs ih =>
    rw [assembleBytes_cons, ih, sequenceNumber, sequenceNumber, List.length_cons,
      Finset.sum_range_succ']
    simp only [List.getD_cons_succ, List.getD_cons_zero, Nat.add_sub_cancel, Nat.sub_zero]
    rw [add_comm]
    congr 1
    refine Finset.sum_congr rfl fun i _ => ?_
    rw [show bs.length - (i + 1) = bs.length - 1 - i by omega]

end Sys2Proof.Machine
end

