-- ==== Sys2Proof/Laws/Memory.lean ====
section
/-! SUPPORT. The buffer: what a read gives after a write, which bytes a bound sequence has, and that
every operation keeps the canonical form. -/

namespace Sys2Proof.Machine

@[simp] theorem Memory.byteAt_nil (i : Nat) : Memory.byteAt [] i = unlistedByte := rfl

theorem Memory.byteAt_cons (a : Nat) (b : Byte) (m : Memory) (i : Nat) :
    Memory.byteAt ((a, b) :: m) i = if a = i then b else Memory.byteAt m i := rfl

@[simp] theorem Memory.wfFrom_nil (low : Nat) : Memory.wfFrom low [] = true := rfl

theorem Memory.wfFrom_cons (low a : Nat) (b : Byte) (m : Memory) :
    Memory.wfFrom low ((a, b) :: m) = true ↔
      low ≤ a ∧ b ≠ unlistedByte ∧ Memory.wfFrom (a + 1) m = true := by
  simp [Memory.wfFrom, and_assoc]

theorem Memory.wfFrom_mono {low low' : Nat} (h : low ≤ low') {m : Memory}
    (hm : Memory.wfFrom low' m = true) : Memory.wfFrom low m = true := by
  cases m with
  | nil => rfl
  | cons c m =>
    obtain ⟨a, b⟩ := c
    rw [Memory.wfFrom_cons] at *
    exact ⟨h.trans hm.1, hm.2⟩

/-- An index below a memory's lower bound is not listed. -/
theorem Memory.byteAt_of_lt {m : Memory} {low i : Nat} (hm : Memory.wfFrom low m = true)
    (hi : i < low) : m.byteAt i = unlistedByte := by
  induction m generalizing low with
  | nil => rfl
  | cons c m ih =>
    obtain ⟨a, b⟩ := c
    rw [Memory.wfFrom_cons] at hm
    rw [Memory.byteAt_cons, if_neg (by omega)]
    exact ih hm.2.2 (by omega)

theorem Memory.erase_wfFrom {m : Memory} {low : Nat} (i : Nat) (hm : Memory.wfFrom low m = true) :
    Memory.wfFrom low (m.erase i) = true := by
  induction m generalizing low with
  | nil => rfl
  | cons c m ih =>
    obtain ⟨a, b⟩ := c
    rw [Memory.wfFrom_cons] at hm
    unfold Memory.erase
    split
    · exact Memory.wfFrom_mono (by omega) hm.2.2
    · exact (Memory.wfFrom_cons ..).2 ⟨hm.1, hm.2.1, ih hm.2.2⟩

theorem Memory.byteAt_erase {m : Memory} {low : Nat} (i j : Nat) (hm : Memory.wfFrom low m = true) :
    (m.erase i).byteAt j = if j = i then unlistedByte else m.byteAt j := by
  induction m generalizing low with
  | nil => simp [Memory.erase]
  | cons c m ih =>
    obtain ⟨a, b⟩ := c
    rw [Memory.wfFrom_cons] at hm
    unfold Memory.erase
    split
    · rename_i h
      subst h
      split
      · rename_i h; subst h
        exact Memory.byteAt_of_lt hm.2.2 (by omega)
      · rename_i h
        rw [Memory.byteAt_cons, if_neg (by omega)]
    · rename_i h
      rw [Memory.byteAt_cons, Memory.byteAt_cons, ih hm.2.2]
      split <;> split <;> simp_all

theorem Memory.insert_wfFrom {m : Memory} {low i : Nat} {v : Byte} (hm : Memory.wfFrom low m = true)
    (hi : low ≤ i) (hv : v ≠ unlistedByte) (hfree : m.byteAt i = unlistedByte) :
    Memory.wfFrom low (m.insert i v) = true := by
  induction m generalizing low with
  | nil => exact (Memory.wfFrom_cons ..).2 ⟨hi, hv, rfl⟩
  | cons c m ih =>
    obtain ⟨a, b⟩ := c
    rw [Memory.wfFrom_cons] at hm
    rw [Memory.byteAt_cons] at hfree
    have hne : a ≠ i := fun h => hm.2.1 (by simpa [h] using hfree)
    rw [if_neg hne] at hfree
    unfold Memory.insert
    split
    · exact (Memory.wfFrom_cons ..).2 ⟨hi, hv, (Memory.wfFrom_cons ..).2 ⟨by omega, hm.2⟩⟩
    · exact (Memory.wfFrom_cons ..).2 ⟨hm.1, hm.2.1, ih hm.2.2 (by omega) hfree⟩

theorem Memory.byteAt_insert {m : Memory} {low i : Nat} (v : Byte) (j : Nat)
    (hm : Memory.wfFrom low m = true) (hfree : m.byteAt i = unlistedByte) :
    (m.insert i v).byteAt j = if j = i then v else m.byteAt j := by
  induction m generalizing low with
  | nil => simp [Memory.insert, Memory.byteAt_cons, eq_comm]
  | cons c m ih =>
    obtain ⟨a, b⟩ := c
    rw [Memory.wfFrom_cons] at hm
    rw [Memory.byteAt_cons] at hfree
    have hne : a ≠ i := fun h => hm.2.1 (by simpa [h] using hfree)
    rw [if_neg hne] at hfree
    unfold Memory.insert
    split
    · rw [Memory.byteAt_cons]
      split <;> split <;> first | rfl | omega
    · rw [Memory.byteAt_cons, Memory.byteAt_cons, ih hm.2.2 hfree]
      split <;> split <;> first | rfl | omega

/-- A write keeps the canonical form. -/
theorem Memory.write_wf {m : Memory} (i : Nat) (v : Byte) (hm : m.wf = true) :
    (m.write i v).wf = true := by
  unfold Memory.write
  split
  · exact Memory.erase_wfFrom i hm
  · rename_i hv
    exact Memory.insert_wfFrom (Memory.erase_wfFrom i hm) (Nat.zero_le i) hv
      (by rw [Memory.byteAt_erase i i hm, if_pos rfl])

/-- A read after a write gives the byte written there, and what was there elsewhere. -/
theorem Memory.byteAt_write {m : Memory} (i : Nat) (v : Byte) (j : Nat) (hm : m.wf = true) :
    (m.write i v).byteAt j = if j = i then v else m.byteAt j := by
  unfold Memory.write
  split
  · rename_i hv
    rw [Memory.byteAt_erase i j hm, hv]
  · rw [Memory.byteAt_insert v j (Memory.erase_wfFrom i hm)
      (by rw [Memory.byteAt_erase i i hm, if_pos rfl]), Memory.byteAt_erase i j hm]
    split <;> rfl

theorem Memory.ofBytesFrom_wfFrom (i : Nat) (bs : List Byte) :
    Memory.wfFrom i (Memory.ofBytesFrom i bs) = true := by
  induction bs generalizing i with
  | nil => rfl
  | cons v vs ih =>
    unfold Memory.ofBytesFrom
    split
    · exact Memory.wfFrom_mono (Nat.le_succ i) (ih (i + 1))
    · rename_i hv
      exact (Memory.wfFrom_cons ..).2 ⟨le_rfl, hv, ih (i + 1)⟩

/-- A bound sequence is in canonical form. -/
theorem Memory.ofBytes_wf (bs : List Byte) : (Memory.ofBytes bs).wf = true :=
  Memory.ofBytesFrom_wfFrom 0 bs

theorem Memory.byteAt_ofBytesFrom (base : Nat) (bs : List Byte) (i : Nat) :
    (Memory.ofBytesFrom base bs).byteAt (base + i) = bs.getD i unlistedByte := by
  induction bs generalizing base i with
  | nil => simp [Memory.ofBytesFrom]
  | cons v vs ih =>
    unfold Memory.ofBytesFrom
    split
    · rename_i hv
      cases i with
      | zero =>
        rw [Memory.byteAt_of_lt (Memory.ofBytesFrom_wfFrom (base + 1) vs) (by omega)]
        simp [hv]
      | succ i =>
        have := ih (base + 1) i
        rw [show base + 1 + i = base + (i + 1) by omega] at this
        rw [this]
        simp
    · cases i with
      | zero => simp [Memory.byteAt_cons]
      | succ i =>
        have := ih (base + 1) i
        rw [show base + 1 + i = base + (i + 1) by omega] at this
        rw [Memory.byteAt_cons, if_neg (by omega), this]
        simp

/-- The byte of a bound sequence at an index. -/
theorem Memory.byteAt_ofBytes (bs : List Byte) (i : Nat) :
    (Memory.ofBytes bs).byteAt i = bs.getD i unlistedByte := by
  have h := Memory.byteAt_ofBytesFrom 0 bs i
  rwa [Nat.zero_add] at h

theorem Memory.below_ofBytesFrom (base : Nat) (bs : List Byte) :
    (Memory.ofBytesFrom base bs).below (base + bs.length) = true := by
  induction bs generalizing base with
  | nil => rfl
  | cons v vs ih =>
    have h := ih (base + 1)
    rw [show base + 1 + vs.length = base + (v :: vs).length by simp; omega] at h
    unfold Memory.ofBytesFrom
    split
    · exact h
    · simp only [Memory.below, List.all_cons, Bool.and_eq_true, decide_eq_true_eq]
      exact ⟨by simp, h⟩

/-- Every entry of a bound sequence lies below its length. -/
theorem Memory.below_ofBytes (bs : List Byte) : (Memory.ofBytes bs).below bs.length = true := by
  have h := Memory.below_ofBytesFrom 0 bs
  rwa [Nat.zero_add] at h

end Sys2Proof.Machine
end

