-- ==== Sys2Proof/Laws/State.lean ====
section
/-! SUPPORT. One lemma per field per update of the state, so that no later proof unfolds an update. -/

namespace Sys2Proof.Machine

@[simp] theorem State.setPc_pc (s : State) (v : Word) : (s.setPc v).pc = v := rfl
@[simp] theorem State.setPc_stack (s : State) (v : Word) : (s.setPc v).stack = s.stack := rfl
@[simp] theorem State.setPc_buf (s : State) (v : Word) : (s.setPc v).buf = s.buf := rfl
@[simp] theorem State.setPc_len (s : State) (v : Word) : (s.setPc v).len = s.len := rfl
@[simp] theorem State.setPc_machineRef (s : State) (v : Word) : (s.setPc v).machineRef = s.machineRef := rfl
@[simp] theorem State.setPc_sink (s : State) (v : Word) : (s.setPc v).sink = s.sink := rfl
@[simp] theorem State.setPc_response (s : State) (v : Word) : (s.setPc v).response = s.response := rfl
@[simp] theorem State.setPc_port (s : State) (v : Word) : (s.setPc v).port = s.port := rfl
@[simp] theorem State.setPc_sinkAnswers (s : State) (v : Word) : (s.setPc v).sinkAnswers = s.sinkAnswers := rfl
@[simp] theorem State.setPc_draws (s : State) (v : Word) : (s.setPc v).draws = s.draws := rfl

@[simp] theorem State.respond_pc (s : State) (r : Response) : (s.respond r).pc = s.pc := rfl
@[simp] theorem State.respond_stack (s : State) (r : Response) : (s.respond r).stack = s.stack := rfl
@[simp] theorem State.respond_buf (s : State) (r : Response) : (s.respond r).buf = s.buf := rfl
@[simp] theorem State.respond_len (s : State) (r : Response) : (s.respond r).len = s.len := rfl
@[simp] theorem State.respond_machineRef (s : State) (r : Response) : (s.respond r).machineRef = s.machineRef := rfl
@[simp] theorem State.respond_sink (s : State) (r : Response) : (s.respond r).sink = s.sink := rfl
@[simp] theorem State.respond_response (s : State) (r : Response) : (s.respond r).response = r := rfl
@[simp] theorem State.respond_port (s : State) (r : Response) : (s.respond r).port = s.port := rfl
@[simp] theorem State.respond_sinkAnswers (s : State) (r : Response) : (s.respond r).sinkAnswers = s.sinkAnswers := rfl
@[simp] theorem State.respond_draws (s : State) (r : Response) : (s.respond r).draws = s.draws := rfl

@[simp] theorem State.raise_pc (s : State) (e : ErrorKind) : (s.raise e).pc = s.pc := rfl
@[simp] theorem State.raise_stack (s : State) (e : ErrorKind) : (s.raise e).stack = s.stack := rfl
@[simp] theorem State.raise_buf (s : State) (e : ErrorKind) : (s.raise e).buf = s.buf := rfl
@[simp] theorem State.raise_len (s : State) (e : ErrorKind) : (s.raise e).len = s.len := rfl
@[simp] theorem State.raise_machineRef (s : State) (e : ErrorKind) : (s.raise e).machineRef = s.machineRef := rfl
@[simp] theorem State.raise_sink (s : State) (e : ErrorKind) : (s.raise e).sink = s.sink := rfl
@[simp] theorem State.raise_response (s : State) (e : ErrorKind) : (s.raise e).response = errorResponse e := rfl
@[simp] theorem State.raise_port (s : State) (e : ErrorKind) : (s.raise e).port = s.port := rfl
@[simp] theorem State.raise_sinkAnswers (s : State) (e : ErrorKind) : (s.raise e).sinkAnswers = s.sinkAnswers := rfl
@[simp] theorem State.raise_draws (s : State) (e : ErrorKind) : (s.raise e).draws = s.draws := rfl

@[simp] theorem State.raiseAt_pc (s : State) (v : Word) (e : ErrorKind) : (s.raiseAt v e).pc = s.pc := rfl
@[simp] theorem State.raiseAt_stack (s : State) (v : Word) (e : ErrorKind) : (s.raiseAt v e).stack = s.stack := rfl
@[simp] theorem State.raiseAt_buf (s : State) (v : Word) (e : ErrorKind) : (s.raiseAt v e).buf = s.buf := rfl
@[simp] theorem State.raiseAt_len (s : State) (v : Word) (e : ErrorKind) : (s.raiseAt v e).len = s.len := rfl
@[simp] theorem State.raiseAt_machineRef (s : State) (v : Word) (e : ErrorKind) : (s.raiseAt v e).machineRef = s.machineRef := rfl
@[simp] theorem State.raiseAt_sink (s : State) (v : Word) (e : ErrorKind) : (s.raiseAt v e).sink = s.sink := rfl
@[simp] theorem State.raiseAt_response (s : State) (v : Word) (e : ErrorKind) : (s.raiseAt v e).response = { errorResponse e with res2 := v } := rfl
@[simp] theorem State.raiseAt_port (s : State) (v : Word) (e : ErrorKind) : (s.raiseAt v e).port = s.port := rfl
@[simp] theorem State.raiseAt_sinkAnswers (s : State) (v : Word) (e : ErrorKind) : (s.raiseAt v e).sinkAnswers = s.sinkAnswers := rfl
@[simp] theorem State.raiseAt_draws (s : State) (v : Word) (e : ErrorKind) : (s.raiseAt v e).draws = s.draws := rfl

@[simp] theorem State.draw_pc (s : State) : (s.draw).pc = s.pc := rfl
@[simp] theorem State.draw_stack (s : State) : (s.draw).stack = s.stack := rfl
@[simp] theorem State.draw_buf (s : State) : (s.draw).buf = s.buf := rfl
@[simp] theorem State.draw_len (s : State) : (s.draw).len = s.len := rfl
@[simp] theorem State.draw_machineRef (s : State) : (s.draw).machineRef = s.machineRef := rfl
@[simp] theorem State.draw_sink (s : State) : (s.draw).sink = s.sink := rfl
@[simp] theorem State.draw_response (s : State) : (s.draw).response = s.response := rfl
@[simp] theorem State.draw_port (s : State) : (s.draw).port = s.port := rfl
@[simp] theorem State.draw_sinkAnswers (s : State) : (s.draw).sinkAnswers = s.sinkAnswers := rfl
@[simp] theorem State.draw_draws (s : State) : (s.draw).draws = s.draws + 1 := rfl

@[simp] theorem State.hardReset_pc (s : State) : (s.hardReset).pc = 0 := rfl
@[simp] theorem State.hardReset_stack (s : State) : (s.hardReset).stack = [] := rfl
@[simp] theorem State.hardReset_buf (s : State) : (s.hardReset).buf = [] := rfl
@[simp] theorem State.hardReset_len (s : State) : (s.hardReset).len = 0 := rfl
@[simp] theorem State.hardReset_machineRef (s : State) : (s.hardReset).machineRef = Config.machineRefAfterReset s.draws := rfl
@[simp] theorem State.hardReset_sink (s : State) : (s.hardReset).sink = s.sink := rfl
@[simp] theorem State.hardReset_response (s : State) : (s.hardReset).response = {} := rfl
@[simp] theorem State.hardReset_port (s : State) : (s.hardReset).port = s.port := rfl
@[simp] theorem State.hardReset_sinkAnswers (s : State) : (s.hardReset).sinkAnswers = s.sinkAnswers := rfl
@[simp] theorem State.hardReset_draws (s : State) : (s.hardReset).draws = s.draws + 1 := rfl

@[simp] theorem State.takeInput_pc (s : State) : (s.takeInput).pc = s.pc := rfl
@[simp] theorem State.takeInput_stack (s : State) : (s.takeInput).stack = s.stack := rfl
@[simp] theorem State.takeInput_buf (s : State) : (s.takeInput).buf = s.buf := rfl
@[simp] theorem State.takeInput_len (s : State) : (s.takeInput).len = s.len := rfl
@[simp] theorem State.takeInput_machineRef (s : State) : (s.takeInput).machineRef = s.machineRef := rfl
@[simp] theorem State.takeInput_sink (s : State) : (s.takeInput).sink = s.sink := rfl
@[simp] theorem State.takeInput_response (s : State) : (s.takeInput).response = s.response := rfl
@[simp] theorem State.takeInput_port (s : State) : (s.takeInput).port = s.port.tail := rfl
@[simp] theorem State.takeInput_sinkAnswers (s : State) : (s.takeInput).sinkAnswers = s.sinkAnswers := rfl
@[simp] theorem State.takeInput_draws (s : State) : (s.takeInput).draws = s.draws := rfl

@[simp] theorem State.issue_pc (s : State) (c : CommandRecord) : (s.issue c).pc = s.pc := rfl
@[simp] theorem State.issue_stack (s : State) (c : CommandRecord) : (s.issue c).stack = s.stack := rfl
@[simp] theorem State.issue_buf (s : State) (c : CommandRecord) : (s.issue c).buf = s.buf := rfl
@[simp] theorem State.issue_len (s : State) (c : CommandRecord) : (s.issue c).len = s.len := rfl
@[simp] theorem State.issue_machineRef (s : State) (c : CommandRecord) : (s.issue c).machineRef = s.machineRef := rfl
@[simp] theorem State.issue_sink (s : State) (c : CommandRecord) : (s.issue c).sink = s.sink := rfl
@[simp] theorem State.issue_response (s : State) (c : CommandRecord) : (s.issue c).response = s.response := rfl
@[simp] theorem State.issue_port (s : State) (c : CommandRecord) : (s.issue c).port = .command c :: s.port := rfl
@[simp] theorem State.issue_sinkAnswers (s : State) (c : CommandRecord) : (s.issue c).sinkAnswers = s.sinkAnswers := rfl
@[simp] theorem State.issue_draws (s : State) (c : CommandRecord) : (s.issue c).draws = s.draws := rfl

@[simp] theorem State.setPc_length (s : State) (v : Word) : (s.setPc v).length = s.length := rfl
@[simp] theorem State.respond_length (s : State) (r : Response) : (s.respond r).length = s.length := rfl
@[simp] theorem State.raise_length (s : State) (e : ErrorKind) : (s.raise e).length = s.length := rfl
@[simp] theorem State.raiseAt_length (s : State) (v : Word) (e : ErrorKind) : (s.raiseAt v e).length = s.length := rfl
@[simp] theorem State.draw_length (s : State) : (s.draw).length = s.length := rfl
@[simp] theorem State.takeInput_length (s : State) : (s.takeInput).length = s.length := rfl
@[simp] theorem State.issue_length (s : State) (c : CommandRecord) : (s.issue c).length = s.length := rfl

@[simp] theorem State.hardReset_length (s : State) : s.hardReset.length = 0 := rfl

@[simp] theorem State.setPc_self (s : State) : s.setPc s.pc = s := rfl
@[simp] theorem State.setPc_setPc (s : State) (v w : Word) : (s.setPc v).setPc w = s.setPc w := rfl
@[simp] theorem State.respond_respond (s : State) (r r' : Response) :
    (s.respond r).respond r' = s.respond r' := rfl
@[simp] theorem State.respond_raise (s : State) (r : Response) (e : ErrorKind) :
    (s.respond r).raise e = s.raise e := rfl
@[simp] theorem State.respond_raiseAt (s : State) (r : Response) (v : Word) (e : ErrorKind) :
    (s.respond r).raiseAt v e = s.raiseAt v e := rfl
@[simp] theorem State.issue_takeInput (s : State) (c : CommandRecord) :
    (s.issue c).takeInput = s := rfl

@[simp] theorem State.takeSinkAnswer_pc (s : State) : s.takeSinkAnswer.pc = s.pc := by
  unfold State.takeSinkAnswer; split <;> rfl
@[simp] theorem State.takeSinkAnswer_stack (s : State) : s.takeSinkAnswer.stack = s.stack := by
  unfold State.takeSinkAnswer; split <;> rfl
@[simp] theorem State.takeSinkAnswer_buf (s : State) : s.takeSinkAnswer.buf = s.buf := by
  unfold State.takeSinkAnswer; split <;> rfl
@[simp] theorem State.takeSinkAnswer_len (s : State) : s.takeSinkAnswer.len = s.len := by
  unfold State.takeSinkAnswer; split <;> rfl
@[simp] theorem State.takeSinkAnswer_machineRef (s : State) : s.takeSinkAnswer.machineRef = s.machineRef := by
  unfold State.takeSinkAnswer; split <;> rfl
@[simp] theorem State.takeSinkAnswer_sink (s : State) : s.takeSinkAnswer.sink = s.sink := by
  unfold State.takeSinkAnswer; split <;> rfl
@[simp] theorem State.takeSinkAnswer_response (s : State) : s.takeSinkAnswer.response = s.response := by
  unfold State.takeSinkAnswer; split <;> rfl
@[simp] theorem State.takeSinkAnswer_port (s : State) : s.takeSinkAnswer.port = s.port := by
  unfold State.takeSinkAnswer; split <;> rfl

theorem State.takeSinkAnswer_sinkAnswers (s : State) :
    s.takeSinkAnswer.sinkAnswers = s.sinkAnswers.tail := by
  unfold State.takeSinkAnswer; split <;> rename_i h <;> simp [h]

theorem State.takeSinkAnswer_draws (s : State) :
    s.takeSinkAnswer.draws = if s.sinkAnswers.isEmpty then s.draws + 1 else s.draws := by
  unfold State.takeSinkAnswer; split <;> rename_i h <;> simp [h]

@[simp] theorem State.sinkWrite_pc (s : State) (n : Nat) (v : Word) :
    (s.sinkWrite n v).pc = s.pc := s.takeSinkAnswer_pc
@[simp] theorem State.sinkWrite_stack (s : State) (n : Nat) (v : Word) :
    (s.sinkWrite n v).stack = s.stack := s.takeSinkAnswer_stack
@[simp] theorem State.sinkWrite_buf (s : State) (n : Nat) (v : Word) :
    (s.sinkWrite n v).buf = s.buf := s.takeSinkAnswer_buf
@[simp] theorem State.sinkWrite_len (s : State) (n : Nat) (v : Word) :
    (s.sinkWrite n v).len = s.len := s.takeSinkAnswer_len
@[simp] theorem State.sinkWrite_machineRef (s : State) (n : Nat) (v : Word) :
    (s.sinkWrite n v).machineRef = s.machineRef := s.takeSinkAnswer_machineRef
@[simp] theorem State.sinkWrite_sink (s : State) (n : Nat) (v : Word) :
    (s.sinkWrite n v).sink = s.sink ++ (bytesOf v n).take (s.sinkTakes n) := rfl
@[simp] theorem State.sinkWrite_response (s : State) (n : Nat) (v : Word) :
    (s.sinkWrite n v).response = writeResponse (s.sinkTakes n) s.sinkAnswer.error := rfl
@[simp] theorem State.sinkWrite_port (s : State) (n : Nat) (v : Word) :
    (s.sinkWrite n v).port = s.port := s.takeSinkAnswer_port
@[simp] theorem State.sinkWrite_sinkAnswers (s : State) (n : Nat) (v : Word) :
    (s.sinkWrite n v).sinkAnswers = s.sinkAnswers.tail := s.takeSinkAnswer_sinkAnswers
@[simp] theorem State.sinkWrite_draws (s : State) (n : Nat) (v : Word) :
    (s.sinkWrite n v).draws = if s.sinkAnswers.isEmpty then s.draws + 1 else s.draws := s.takeSinkAnswer_draws
@[simp] theorem State.sinkWrite_length (s : State) (n : Nat) (v : Word) :
    (s.sinkWrite n v).length = s.length := by simp [State.length]

/-- Two states with equal fields are equal. -/
theorem State.eq_of_fields {s t : State} (pc : s.pc = t.pc) (stack : s.stack = t.stack)
    (buf : s.buf = t.buf) (len : s.len = t.len) (machineRef : s.machineRef = t.machineRef)
    (sink : s.sink = t.sink) (response : s.response = t.response) (port : s.port = t.port)
    (sinkAnswers : s.sinkAnswers = t.sinkAnswers) (draws : s.draws = t.draws) : s = t := by
  cases s; cases t; simp_all

end Sys2Proof.Machine
end

