-- ==== Sys2Proof/Laws/Ops.lean ====
section
/-! SUPPORT. One lemma for each shared operation that says what it can do: the bounds test, reads and
fetches, the sink transaction, the answers of commands. -/

namespace Sys2Proof.Machine

/-! ### Bounds and reads -/

theorem State.inBounds_iff (s : State) (addr : Int) (n : Nat) :
    s.inBounds addr n = true ↔ 0 ≤ addr ∧ addr + n ≤ s.length := by
  simp [State.inBounds]

theorem State.readByte_some {s : State} {addr : Int} (h : 0 ≤ addr ∧ addr < s.length) :
    s.readByte addr = some (s.buf.byteAt addr.toNat) := if_pos h

theorem State.readByte_none {s : State} {addr : Int} (h : ¬ (0 ≤ addr ∧ addr < s.length)) :
    s.readByte addr = none := if_neg h

/-- A read is of the buffer and its length only. -/
theorem State.readByte_congr {s t : State} (hb : s.buf = t.buf) (hl : s.len = t.len) (addr : Int) :
    s.readByte addr = t.readByte addr := by
  have hlen : s.length = t.length := congrArg BitVec.toNat hl
  unfold State.readByte
  rw [hb, hlen]

/-- The bytes of the buffer from an index on. -/
def Memory.slice (m : Memory) (i : Nat) : Nat → List Byte
  | 0 => []
  | n + 1 => m.byteAt i :: Memory.slice m (i + 1) n

@[simp] theorem Memory.slice_length (m : Memory) (i n : Nat) : (m.slice i n).length = n := by
  induction n generalizing i with
  | zero => rfl
  | succ n ih => simp [Memory.slice, ih]

theorem Memory.slice_getD (m : Memory) (i n j : Nat) (hj : j < n) :
    (m.slice i n).getD j 0 = m.byteAt (i + j) := by
  induction n generalizing i j with
  | zero => omega
  | succ n ih =>
    cases j with
    | zero => simp [Memory.slice]
    | succ j =>
      rw [Memory.slice, List.getD_cons_succ, ih (i + 1) j (by omega)]
      congr 1
      omega

/-- In bounds a read gives the bytes of the buffer. -/
theorem State.readBytes_inBounds {s : State} {addr : Int} {n : Nat}
    (h : s.inBounds addr n = true) : s.readBytes addr n = some (s.buf.slice addr.toNat n) := by
  induction n generalizing addr with
  | zero => rfl
  | succ n ih =>
    rw [State.inBounds_iff] at h
    have h1 : s.inBounds (addr + 1) n = true := by
      rw [State.inBounds_iff]; push_cast at h; omega
    rw [State.readBytes, State.readByte_some (by push_cast at h; omega), ih h1]
    simp [Memory.slice, Int.toNat_add h.1 (by omega : (0 : Int) ≤ 1)]

/-- Assembling a slice is the big-endian sum. -/
theorem Memory.assemble_slice (m : Memory) (i n : Nat) :
    assembleBytes (m.slice i n) = m.number i n := by
  rw [assembleBytes_eq_sequenceNumber, sequenceNumber, Memory.number, Memory.slice_length]
  refine Finset.sum_congr rfl fun j hj => ?_
  rw [Memory.slice_getD m i n j (Finset.mem_range.1 hj)]

/-- In bounds `MemRead` is the big-endian sum of 00_scope.md R14. -/
theorem State.memRead_inBounds {s : State} {addr : Int} {n : Nat}
    (h : s.inBounds addr n = true) : s.memRead addr n = some (s.buf.number addr.toNat n) := by
  rw [State.memRead, State.readBytes_inBounds h, Option.map_some, Memory.assemble_slice]

/-- `n` bytes of the buffer make a number below `2^(8n)`. -/
theorem Memory.number_lt (m : Memory) (i n : Nat) : m.number i n < 2 ^ (8 * n) := by
  have := assembleBytes_lt (m.slice i n)
  rwa [Memory.assemble_slice, Memory.slice_length] at this

/-! ### Fetches -/

/-- A fetch in bounds goes on with the big-endian number. -/
theorem State.fetch_inBounds {s : State} {cursor : Word} {n : Nat} (short : Result)
    (use : Nat → Result) (h : s.inBounds cursor.toInt n = true) :
    s.fetch cursor n short use = use (s.buf.number cursor.toInt.toNat n) := by
  rw [State.fetch, if_pos h, State.memRead_inBounds h]

/-- A fetch out of bounds is short. -/
theorem State.fetch_short {s : State} {cursor : Word} {n : Nat} (short : Result)
    (use : Nat → Result) (h : ¬ s.inBounds cursor.toInt n = true) :
    s.fetch cursor n short use = short := if_neg h

/-- A fetch is one of the two; it never faults. -/
theorem State.fetch_cases (s : State) (cursor : Word) (n : Nat) (short : Result)
    (use : Nat → Result) :
    (s.inBounds cursor.toInt n = true ∧
      s.fetch cursor n short use = use (s.buf.number cursor.toInt.toNat n)) ∨
    (¬ s.inBounds cursor.toInt n = true ∧ s.fetch cursor n short use = short) := by
  by_cases h : s.inBounds cursor.toInt n = true
  · exact .inl ⟨h, State.fetch_inBounds short use h⟩
  · exact .inr ⟨h, State.fetch_short short use h⟩

/-- What a pure fetch of `k` bytes answers. -/
theorem State.fetchUnsignedAt_eq (s : State) (pc : Word) (k : Nat) :
    s.fetchUnsignedAt pc k =
      if s.inBounds pc.toInt k = true then
        .next (s.respond { okResponse with
          res := BitVec.ofNat 64 (s.buf.number pc.toInt.toNat k), res2 := pc + BitVec.ofNat 64 k })
      else .next (s.raiseAt pc (.notEnoughBytes (BitVec.ofNat 64 k))) := by
  unfold State.fetchUnsignedAt
  split
  · rename_i h; exact State.fetch_inBounds _ _ h
  · rename_i h; exact State.fetch_short _ _ h

/-- What a thread-level fetch of `k` bytes answers. -/
theorem State.fetchAtPc_eq (s : State) (k : Nat) (deliver : Nat → Word) :
    s.fetchAtPc k deliver =
      if s.inBounds s.pc.toInt k = true then
        .next ((s.setPc (s.pc + BitVec.ofNat 64 k)).respond { okResponse with
          res := deliver (s.buf.number s.pc.toInt.toNat k), res2 := s.pc + BitVec.ofNat 64 k })
      else .next (s.raise (.notEnoughBytes (BitVec.ofNat 64 k))) := by
  unfold State.fetchAtPc
  split
  · rename_i h; exact State.fetch_inBounds _ _ h
  · rename_i h; exact State.fetch_short _ _ h

/-! ### Answers -/

theorem StepResult.finish_ok (s : State) :
    StepResult.finish (s, none) = .next (s.respond okResponse) := rfl

theorem StepResult.finish_error (s : State) (e : ErrorKind) :
    StepResult.finish (s, some e) = .next (s.raise e) := rfl

/-- A `Step`'s answer is always a next state, and only the response is new in it. -/
theorem StepResult.finish_next (r : StepResult) :
    ∃ q, StepResult.finish r = .next (r.1.respond q) := by
  obtain ⟨t, _ | e⟩ := r
  · exact ⟨_, rfl⟩
  · exact ⟨_, rfl⟩

theorem State.returnValue_eq (s : State) (k : Kind) (p : Word) :
    s.returnValue k p = .next (s.respond { okResponse with rkind := k.tag, res := p }) := rfl

/-! ### The thread -/

/-- What the dispatch of an opcode does: nothing to the state, and an error unless it is `NoOp`. -/
theorem dispatchOpcode_eq (o : Opcode) (s : State) :
    dispatchOpcode o s = (s, if o = .noOp then none else some .operationUndefined) := by
  cases o <;> rfl

theorem decodeOpcode_eq_noOp (b : Byte) : decodeOpcode b = .noOp ↔ b = 0 := by
  revert b; decide +kernel

/-- A `Step` out of range. -/
theorem State.stepOnce_outOfRange {s : State} (h : ¬ (0 ≤ s.pc.toInt ∧ s.pc.toInt < s.length)) :
    s.stepOnce = (s, some .bytecodeOverflow) := by
  rw [State.stepOnce, State.readByte_none h]

/-- A `Step` in range: `PC` advances by 1, and only the byte 0x00 succeeds. -/
theorem State.stepOnce_inRange {s : State} (h : 0 ≤ s.pc.toInt ∧ s.pc.toInt < s.length) :
    s.stepOnce = (s.setPc (s.pc + 1),
      if s.buf.byteAt s.pc.toInt.toNat = 0 then none else some .operationUndefined) := by
  rw [State.stepOnce, State.readByte_some h]
  simp only [dispatchOpcode_eq, decodeOpcode_eq_noOp]

/-- A `Step` writes nothing but `PC`. -/
theorem State.stepOnce_setPc (s : State) : ∃ v, s.stepOnce.1 = s.setPc v := by
  by_cases h : 0 ≤ s.pc.toInt ∧ s.pc.toInt < s.length
  · exact ⟨_, by rw [State.stepOnce_inRange h]⟩
  · exact ⟨s.pc, by rw [State.stepOnce_outOfRange h]; rfl⟩

/-- `Step`s in sequence write nothing but `PC`. -/
theorem State.stepUpTo_setPc (n : Nat) (s : State) : ∃ v, (State.stepUpTo n s).1 = s.setPc v := by
  induction n generalizing s with
  | zero => exact ⟨s.pc, rfl⟩
  | succ n ih =>
    obtain ⟨v, hv⟩ := s.stepOnce_setPc
    rw [State.stepUpTo]
    split
    · rename_i t ht
      rw [ht] at hv
      obtain ⟨w, hw⟩ := ih t
      simp only at hv
      exact ⟨w, by rw [hw, hv]; rfl⟩
    · rename_i t e ht
      rw [ht] at hv
      exact ⟨v, hv⟩

/-! ### The sink -/

theorem State.sinkTakes_le (s : State) (n : Nat) : s.sinkTakes n ≤ n := Nat.min_le_right _ _

/-- The sink only grows. -/
theorem State.sink_prefix_sinkWrite (s : State) (n : Nat) (v : Word) :
    s.sink <+: (s.sinkWrite n v).sink := ⟨_, rfl⟩

/-! ### Float conversions -/

/-- A conversion draws at most one free value and changes nothing else. -/
theorem FloatFormat.convert_state (src dst : FloatFormat) (bits : Nat) (s : State) :
    (src.convert dst bits s).1 = if src.isNaN bits = true then s.draw else s := by
  unfold FloatFormat.convert
  split
  · simp_all
  · split <;> simp_all

end Sys2Proof.Machine
end

