-- ==== Sys2Proof/Laws/Exec.lean ====
section
/-! SUPPORT. What an instruction can do, said once: the answer of each meaning up to its results, and
the five shapes of a next state. -/

namespace Sys2Proof.Machine

/-- A pure fetch answers, and only the response is new. -/
theorem State.fetchUnsignedAt_next (s : State) (pc : Word) (k : Nat) :
    ∃ r, s.fetchUnsignedAt pc k = .next (s.respond r) := by
  rw [State.fetchUnsignedAt_eq]
  split
  · exact ⟨_, rfl⟩
  · exact ⟨_, rfl⟩

/-- A thread-level fetch answers, and only `PC` and the response are new. -/
theorem State.fetchAtPc_next (s : State) (k : Nat) (deliver : Nat → Word) :
    ∃ v r, s.fetchAtPc k deliver = .next ((s.setPc v).respond r) := by
  rw [State.fetchAtPc_eq]
  split
  · exact ⟨_, _, rfl⟩
  · exact ⟨s.pc, _, rfl⟩

/-- `FetchN` answers, and only the response is new. -/
theorem execFetchN_next (pc count : Word) (s : State) :
    ∃ r, execFetchN pc count s = .next (s.respond r) := by
  unfold execFetchN
  split
  · exact ⟨_, rfl⟩
  split
  · exact ⟨_, rfl⟩
  split
  · split
    · exact ⟨_, rfl⟩
    · exact ⟨_, rfl⟩
  · rcases State.fetch_cases s pc count.toNat (.next (s.raiseAt pc (.notEnoughBytes count)))
      (fun u => .next (s.respond { okResponse with
        res := BitVec.ofNat 64 u, res2 := pc + count })) with ⟨-, h⟩ | ⟨-, h⟩
    · exact ⟨_, h⟩
    · exact ⟨_, h⟩

/-- Every width of the signed fetch is a thread-level fetch. -/
theorem fetchSignedOfWidth_next (k : Nat) (s : State) :
    ∃ v r, fetchSignedOfWidth k s = .next ((s.setPc v).respond r) := by
  unfold fetchSignedOfWidth
  split <;> exact State.fetchAtPc_next s _ _

theorem execFetchSigned_next (count : Word) (s : State) :
    ∃ v r, execFetchSigned count s = .next ((s.setPc v).respond r) := by
  unfold execFetchSigned
  split
  · exact ⟨s.pc, _, rfl⟩
  · exact fetchSignedOfWidth_next _ s

theorem execFetchUnsigned_next (count : Word) (s : State) :
    ∃ v r, execFetchUnsigned count s = .next ((s.setPc v).respond r) := by
  unfold execFetchUnsigned
  split
  · exact ⟨s.pc, _, rfl⟩
  · exact State.fetchAtPc_next s _ _

/-- An opcode arm answers, and only the response is new. -/
theorem dispatchOpcode_finish_next (o : Opcode) (s : State) :
    ∃ r, StepResult.finish (dispatchOpcode o s) = .next (s.respond r) := by
  obtain ⟨r, h⟩ := StepResult.finish_next (dispatchOpcode o s)
  rw [dispatchOpcode_eq] at h
  exact ⟨r, by rw [dispatchOpcode_eq]; exact h⟩

theorem execStep_next (s : State) : ∃ v r, execStep s = .next ((s.setPc v).respond r) := by
  obtain ⟨r, h⟩ := StepResult.finish_next s.stepOnce
  obtain ⟨v, hv⟩ := s.stepOnce_setPc
  exact ⟨v, r, by rw [execStep, h, hv]⟩

theorem stepUpTo_finish_next (n : Nat) (s : State) :
    ∃ v r, StepResult.finish (State.stepUpTo n s) = .next ((s.setPc v).respond r) := by
  obtain ⟨r, h⟩ := StepResult.finish_next (State.stepUpTo n s)
  obtain ⟨v, hv⟩ := State.stepUpTo_setPc n s
  exact ⟨v, r, by rw [h, hv]⟩

/-- A state after which only the response, and perhaps one free value, differs. -/
def State.answersOnly (s : State) (a : Result) : Prop :=
  (∃ r, a = .next (s.respond r)) ∨ (∃ r, a = .next (s.draw.respond r)) ∨ ∃ q, a = .refused q

theorem State.answersOnly_returnValue (s : State) (k : Kind) (p : Word) :
    s.answersOnly (s.returnValue k p) := .inl ⟨_, rfl⟩

theorem FloatFormat.convert_answersOnly (src dst : FloatFormat) (bits : Nat) (s : State) (k : Kind) :
    s.answersOnly ((src.convert dst bits s).1.returnValue k (src.convert dst bits s).2) := by
  rw [FloatFormat.convert_state]
  split
  · exact .inr (.inl ⟨_, rfl⟩)
  · exact .inl ⟨_, rfl⟩

theorem execUpcast_answersOnly (source : KindTag) (p : Word) (s : State) :
    s.answersOnly (execUpcast source p s) := by
  unfold execUpcast
  split
  case h_9 => exact FloatFormat.convert_answersOnly _ _ _ _ _
  case h_11 => exact .inr (.inr ⟨_, rfl⟩)
  all_goals exact .inl ⟨_, rfl⟩

theorem downcastToInteger_answersOnly (c : CanonicalKind) (p : Word) (k : Kind) (s : State) :
    s.answersOnly (downcastToInteger c p k s) := by
  cases c <;> exact .inl ⟨_, rfl⟩

theorem downcastToFloat_answersOnly (c : CanonicalKind) (p : Word) (k : Kind) (s : State) :
    s.answersOnly (downcastToFloat c p k s) := by
  cases c
  · exact .inl ⟨_, rfl⟩
  · exact .inl ⟨_, rfl⟩
  · exact FloatFormat.convert_answersOnly _ _ _ _ _

theorem downcastStackValue_answersOnly (c : CanonicalKind) (p : Word) (t : KindTag) (s : State) :
    s.answersOnly (downcastStackValue c p t s) := by
  unfold downcastStackValue
  split
  · exact .inl ⟨_, rfl⟩
  split
  · exact .inl ⟨_, rfl⟩
  split
  · exact .inl ⟨_, rfl⟩
  · exact downcastToInteger_answersOnly _ _ _ _
  · exact downcastToInteger_answersOnly _ _ _ _
  · exact downcastToFloat_answersOnly _ _ _ _

theorem execDowncast_answersOnly (source : KindTag) (p : Word) (target : KindTag) (s : State) :
    s.answersOnly (execDowncast source p target s) := by
  unfold execDowncast
  split
  · exact downcastStackValue_answersOnly _ _ _ _
  · exact downcastStackValue_answersOnly _ _ _ _
  · exact downcastStackValue_answersOnly _ _ _ _
  · exact .inr (.inr ⟨_, rfl⟩)

/-- The shapes of an instruction's outcome. -/
inductive Outcome.Shape (i : Instr) (s : State) : Result → Prop where
  | answer (r : Response) (pure : writesPc i = false ∧ writesSink i = false) :
      Outcome.Shape i s (.next (s.respond r))
  | draw (r : Response) (draws : mayDrawNaN i = true) : Outcome.Shape i s (.next (s.draw.respond r))
  | thread (v : Word) (r : Response) (writes : writesPc i = true ∧ isConstruct i = false) :
      Outcome.Shape i s (.next ((s.setPc v).respond r))
  | sink (n : Nat) (v : Word) (atMost : n ≤ 8) (writes : writesSink i = true) :
      Outcome.Shape i s (.next (s.sinkWrite n v))
  | construct (buffer : List Byte) (pc0 ref : Word) (isIt : i = .construct buffer pc0 ref)
      (short : buffer.length ≤ maxBufferLength) :
      Outcome.Shape i s (.next ({ s with
        buf := Memory.ofBytes buffer
        len := BitVec.ofNat 64 buffer.length
        pc := pc0
        stack := []
        machineRef := ref }.respond okResponse))
  | refused (q : Refusal) : Outcome.Shape i s (.refused q)

theorem Outcome.Shape.of_answer {i : Instr} {s : State} {a : Result}
    (pure : writesPc i = false ∧ writesSink i = false) (h : ∃ r, a = .next (s.respond r)) :
    Outcome.Shape i s a := by
  obtain ⟨r, rfl⟩ := h; exact .answer r pure

theorem Outcome.Shape.of_thread {i : Instr} {s : State} {a : Result}
    (writes : writesPc i = true ∧ isConstruct i = false)
    (h : ∃ v r, a = .next ((s.setPc v).respond r)) : Outcome.Shape i s a := by
  obtain ⟨v, r, rfl⟩ := h; exact .thread v r writes

theorem Outcome.Shape.of_answersOnly {i : Instr} {s : State} {a : Result}
    (pure : writesPc i = false ∧ writesSink i = false) (draws : mayDrawNaN i = true)
    (h : s.answersOnly a) : Outcome.Shape i s a := by
  rcases h with ⟨r, rfl⟩ | ⟨r, rfl⟩ | ⟨q, rfl⟩
  · exact .answer r pure
  · exact .draw r draws
  · exact .refused q

theorem varIntWidth_le (value : Word) : varIntWidth value ≤ 8 := by
  unfold varIntWidth; repeat' split
  all_goals omega

/-- Every instruction's outcome has one of the shapes; none is a fault. -/
theorem exec_shape (i : Instr) (s : State) : Outcome.Shape i s (exec i s) := by
  cases i
  case noOp => exact .of_answer ⟨rfl, rfl⟩ (dispatchOpcode_finish_next .noOp s)
  case undefined80FF low => exact .of_answer ⟨rfl, rfl⟩ (dispatchOpcode_finish_next (.undefined80FF low) s)
  case undefined407F low => exact .of_answer ⟨rfl, rfl⟩ (dispatchOpcode_finish_next (.undefined407F low) s)
  case undefined203F low => exact .of_answer ⟨rfl, rfl⟩ (dispatchOpcode_finish_next (.undefined203F low) s)
  case undefined101F low => exact .of_answer ⟨rfl, rfl⟩ (dispatchOpcode_finish_next (.undefined101F low) s)
  case undefined080F low => exact .of_answer ⟨rfl, rfl⟩ (dispatchOpcode_finish_next (.undefined080F low) s)
  case undefined0407 low => exact .of_answer ⟨rfl, rfl⟩ (dispatchOpcode_finish_next (.undefined0407 low) s)
  case undefined0203 low => exact .of_answer ⟨rfl, rfl⟩ (dispatchOpcode_finish_next (.undefined0203 low) s)
  case undefined0101 => exact .of_answer ⟨rfl, rfl⟩ (dispatchOpcode_finish_next .undefined0101 s)
  case fetchN pc count => exact .of_answer ⟨rfl, rfl⟩ (execFetchN_next pc count s)
  case fetchSigned count => exact .of_thread ⟨rfl, rfl⟩ (execFetchSigned_next count s)
  case fetchUnsigned count => exact .of_thread ⟨rfl, rfl⟩ (execFetchUnsigned_next count s)
  case fetchU8 pc => exact .of_answer ⟨rfl, rfl⟩ (State.fetchUnsignedAt_next s pc 1)
  case fetchU16 pc => exact .of_answer ⟨rfl, rfl⟩ (State.fetchUnsignedAt_next s pc 2)
  case fetchU24 pc => exact .of_answer ⟨rfl, rfl⟩ (State.fetchUnsignedAt_next s pc 3)
  case fetchU32 pc => exact .of_answer ⟨rfl, rfl⟩ (State.fetchUnsignedAt_next s pc 4)
  case fetchU40 pc => exact .of_answer ⟨rfl, rfl⟩ (State.fetchUnsignedAt_next s pc 5)
  case fetchU48 pc => exact .of_answer ⟨rfl, rfl⟩ (State.fetchUnsignedAt_next s pc 6)
  case fetchU56 pc => exact .of_answer ⟨rfl, rfl⟩ (State.fetchUnsignedAt_next s pc 7)
  case fetchU64 pc => exact .of_answer ⟨rfl, rfl⟩ (State.fetchUnsignedAt_next s pc 8)
  case fetchI8 => exact .of_thread ⟨rfl, rfl⟩ (State.fetchAtPc_next s _ _)
  case fetchI16 => exact .of_thread ⟨rfl, rfl⟩ (State.fetchAtPc_next s _ _)
  case fetchI24 => exact .of_thread ⟨rfl, rfl⟩ (State.fetchAtPc_next s _ _)
  case fetchI32 => exact .of_thread ⟨rfl, rfl⟩ (State.fetchAtPc_next s _ _)
  case fetchI40 => exact .of_thread ⟨rfl, rfl⟩ (State.fetchAtPc_next s _ _)
  case fetchI48 => exact .of_thread ⟨rfl, rfl⟩ (State.fetchAtPc_next s _ _)
  case fetchI56 => exact .of_thread ⟨rfl, rfl⟩ (State.fetchAtPc_next s _ _)
  case fetchI64 => exact .of_thread ⟨rfl, rfl⟩ (State.fetchAtPc_next s _ _)
  case writeU8 v => exact .sink 1 v (by omega) rfl
  case writeU16 v => exact .sink 2 v (by omega) rfl
  case writeU24 v => exact .sink 3 v (by omega) rfl
  case writeU32 v => exact .sink 4 v (by omega) rfl
  case writeU40 v => exact .sink 5 v (by omega) rfl
  case writeU48 v => exact .sink 6 v (by omega) rfl
  case writeU56 v => exact .sink 7 v (by omega) rfl
  case writeU64 v => exact .sink 8 v (by omega) rfl
  case writeVarInt v => exact .sink _ v (varIntWidth_le v) rfl
  case unsignedByteSize v => exact .of_answer ⟨rfl, rfl⟩ ⟨_, rfl⟩
  case unsignedToBytes v => exact .of_answer ⟨rfl, rfl⟩ ⟨_, rfl⟩
  case unsignedFromBytes k lanes =>
    simp only [exec, execUnsignedFromBytes]
    split
    · exact .of_answer ⟨rfl, rfl⟩ ⟨_, rfl⟩
    · exact .refused _
  case upcast source p =>
    exact .of_answersOnly ⟨rfl, rfl⟩ rfl (execUpcast_answersOnly source p s)
  case downcast source p target =>
    exact .of_answersOnly ⟨rfl, rfl⟩ rfl (execDowncast_answersOnly source p target s)
  case kindInfo tag =>
    simp only [exec, execKindInfo]
    split
    · exact .refused _
    split
    · exact .of_answer ⟨rfl, rfl⟩ ⟨_, rfl⟩
    · exact .refused _
  case step => exact .of_thread ⟨rfl, rfl⟩ (execStep_next s)
  case run => exact .of_thread ⟨rfl, rfl⟩ (stepUpTo_finish_next _ s)
  case runFor n => exact .of_thread ⟨rfl, rfl⟩ (stepUpTo_finish_next _ s)
  case construct buffer pc0 ref =>
    simp only [exec, execConstruct]
    split
    · rename_i h; exact .construct buffer pc0 ref rfl h
    · exact .refused _

/-- What a step can do: keep the state, run a decoded command, reset, or refuse a code. -/
theorem step_cases (s : State) :
    (s.port = [] ∧ step s = .next s) ∨
    (∃ rest, s.port = .reset :: rest ∧ step s = .next s.takeInput.hardReset) ∨
    (∃ c rest i, s.port = .command c :: rest ∧ decodeCommand c = .ok i ∧
      step s = exec i s.takeInput) ∨
    (∃ c rest code, s.port = .command c :: rest ∧ decodeCommand c = .error (.notACommand code) ∧
      step s = .refused (.notACommand code)) := by
  cases hp : s.port with
  | nil => exact .inl ⟨rfl, by simp [step, hp]⟩
  | cons a rest =>
    cases a with
    | reset => exact .inr (.inl ⟨rest, rfl, by simp [step, hp]⟩)
    | command c =>
      cases hc : decodeCommand c with
      | ok i => exact .inr (.inr (.inl ⟨c, rest, i, rfl, hc, by simp [step, hp, hc]⟩))
      | error e =>
        obtain ⟨code⟩ := e
        exact .inr (.inr (.inr ⟨c, rest, code, rfl, hc, by simp [step, hp, hc]⟩))

end Sys2Proof.Machine
end

