-- ==== Sys2Proof/Tests/Slice0.lean ====
section
/-! SUPPORT. Tests. Words are written out from the tables of 30_encoding.md, expected results from
95_test_vectors.md; a witness theorem shows that the hypotheses of a statement can be met. -/

namespace Sys2Proof.Machine

/-! ### Helpers -/

/-- A thread on a buffer at a `PC`, nothing else issued. -/
def thread (bytes : List Byte) (pc : Word) : State :=
  { State.reset with pc := pc, buf := Memory.ofBytes bytes, len := BitVec.ofNat 64 bytes.length }

/-- A thread whose sink gives one answer. -/
def withSink (count : Nat) (error : Option Word) : State :=
  { thread [] 0 with sinkAnswers := [{ count := count, error := error }] }

/-- The next state of an outcome, if it has one. -/
def nextState : Result → Option State
  | .next s => some s
  | .fault _ => none
  | .refused _ => none

/-- The response and `PC` after a command that gives a next state. -/
def answer : Result → Option (Response × Word)
  | .next s => some (s.response, s.pc)
  | .fault _ => none
  | .refused _ => none

/-- The kind tag and payload of a successful answer. -/
def valueOf : Result → Option (BitVec 5 × Word)
  | .next s => if s.response.status = 0 then some (s.response.rkind, s.response.res) else none
  | .fault _ => none
  | .refused _ => none

/-- What the sink has taken, and the response, after a write. -/
def written : Result → Option (List Byte × Response)
  | .next s => some (s.sink, s.response)
  | .fault _ => none
  | .refused _ => none

/-- The refusal of an outcome. -/
def refusalOf : Result → Option Refusal
  | .refused r => some r
  | .next _ => none
  | .fault _ => none

/-- A successful fetch. -/
def fetched (value newPc : Word) : Response := { okResponse with res := value, res2 := newPc }

/-- A failing pure fetch: the cursor comes back. -/
def notFetched (e : ErrorKind) (cursor : Word) : Response := { errorResponse e with res2 := cursor }

/-- A successful write of `n` bytes. -/
def wrote (n : Word) : Response := { okResponse with res2 := n }

/-- The buffer `B` of table 2.1. -/
def threadB : State := thread [0x12, 0x34, 0x56, 0x78, 0x9A, 0xBC, 0xDE, 0xF0, 0x11] 0

/-- A thread on the buffer `C` of table 2.5. -/
def threadC (pc : Word) : State := thread [0x80, 0x01, 0xFF, 0x7F, 0x00, 0x80, 0xFF, 0xFF, 0xFF] pc

/-! ### Well-formedness -/

theorem test_wf_upcast_tag : Instr.wf (.upcast (.unassigned 17) 0) = false := by decide
theorem test_wf_upcast_tag_ok : Instr.wf (.upcast (.unassigned 18) 0) = true := by decide
theorem test_wf_downcast_source : Instr.wf (.downcast (.unassigned 0) 0 (.kind .uint8)) = false := by
  decide
theorem test_wf_downcast_target : Instr.wf (.downcast (.kind .int64) 0 (.unassigned 9)) = false := by
  decide
theorem test_wf_kindInfo_tag : Instr.wf (.kindInfo (.unassigned 5)) = false := by decide
theorem test_wf_construct_length :
    Instr.wf (.construct (List.replicate (2 ^ 63) 0) 0 0) = false := by
  simp only [Instr.wf, List.length_replicate]; decide

/-! ### Decoding -/

/-- One byte of every row of the opcode map (30_encoding.md R87). -/
theorem test_decode_opcodes :
    decode (.opcode 0b00000000) = .ok (.noOp) ∧
    decode (.opcode 0b10000000) = .ok (.undefined80FF 0) ∧
    decode (.opcode 0b11111111) = .ok (.undefined80FF 0b1111111) ∧
    decode (.opcode 0b01000001) = .ok (.undefined407F 1) ∧
    decode (.opcode 0b00101010) = .ok (.undefined203F 0b01010) ∧
    decode (.opcode 0b00011000) = .ok (.undefined101F 0b1000) ∧
    decode (.opcode 0b00001111) = .ok (.undefined080F 0b111) ∧
    decode (.opcode 0b00000111) = .ok (.undefined0407 0b11) ∧
    decode (.opcode 0b00000010) = .ok (.undefined0203 0) ∧
    decode (.opcode 0b00000001) = .ok (.undefined0101) := by decide

/-- Select codes 0x01 to 0x08, `a` = `pc` (30_encoding.md R95). -/
theorem test_decode_fetchU :
    decode (.command { cmd := 0b000001#6, a := 11 }) = .ok (.fetchU8 11) ∧
    decode (.command { cmd := 0b000010#6, a := 12 }) = .ok (.fetchU16 12) ∧
    decode (.command { cmd := 0b000011#6, a := 13 }) = .ok (.fetchU24 13) ∧
    decode (.command { cmd := 0b000100#6, a := 14 }) = .ok (.fetchU32 14) ∧
    decode (.command { cmd := 0b000101#6, a := 15 }) = .ok (.fetchU40 15) ∧
    decode (.command { cmd := 0b000110#6, a := 16 }) = .ok (.fetchU48 16) ∧
    decode (.command { cmd := 0b000111#6, a := 17 }) = .ok (.fetchU56 17) ∧
    decode (.command { cmd := 0b001000#6, a := 18 }) = .ok (.fetchU64 18) := by decide

/-- Select code 0x09, `a` = `pc`, `b` = `count`. -/
theorem test_decode_fetchN :
    decode (.command { cmd := 0b001001#6, a := 3, b := 2 }) = .ok (.fetchN 3 2) := by decide

/-- Select codes 0x11 to 0x18. -/
theorem test_decode_fetchI :
    decode (.command { cmd := 0b010001#6 }) = .ok (.fetchI8) ∧
    decode (.command { cmd := 0b010010#6 }) = .ok (.fetchI16) ∧
    decode (.command { cmd := 0b010011#6 }) = .ok (.fetchI24) ∧
    decode (.command { cmd := 0b010100#6 }) = .ok (.fetchI32) ∧
    decode (.command { cmd := 0b010101#6 }) = .ok (.fetchI40) ∧
    decode (.command { cmd := 0b010110#6 }) = .ok (.fetchI48) ∧
    decode (.command { cmd := 0b010111#6 }) = .ok (.fetchI56) ∧
    decode (.command { cmd := 0b011000#6 }) = .ok (.fetchI64) := by decide

/-- Select codes 0x19 and 0x1A, `b` = `count`. -/
theorem test_decode_dispatchers :
    decode (.command { cmd := 0b011001#6, b := 5 }) = .ok (.fetchSigned 5) ∧
    decode (.command { cmd := 0b011010#6, b := 6 }) = .ok (.fetchUnsigned 6) := by decide

/-- Select codes 0x21 to 0x28, `a` = value. -/
theorem test_decode_writeU :
    decode (.command { cmd := 0b100001#6, a := 11 }) = .ok (.writeU8 11) ∧
    decode (.command { cmd := 0b100010#6, a := 12 }) = .ok (.writeU16 12) ∧
    decode (.command { cmd := 0b100011#6, a := 13 }) = .ok (.writeU24 13) ∧
    decode (.command { cmd := 0b100100#6, a := 14 }) = .ok (.writeU32 14) ∧
    decode (.command { cmd := 0b100101#6, a := 15 }) = .ok (.writeU40 15) ∧
    decode (.command { cmd := 0b100110#6, a := 16 }) = .ok (.writeU48 16) ∧
    decode (.command { cmd := 0b100111#6, a := 17 }) = .ok (.writeU56 17) ∧
    decode (.command { cmd := 0b101000#6, a := 18 }) = .ok (.writeU64 18) := by decide

/-- Select codes 0x29 to 0x2C. -/
theorem test_decode_minimal :
    decode (.command { cmd := 0b101001#6, a := 256 }) = .ok (.writeVarInt 256) ∧
    decode (.command { cmd := 0b101010#6, a := 256 }) = .ok (.unsignedByteSize 256) ∧
    decode (.command { cmd := 0b101011#6, a := 256 }) = .ok (.unsignedToBytes 256) ∧
    decode (.command { cmd := 0b101100#6, b := 2, lanes := { l0 := 1 } }) = .ok (.unsignedFromBytes 2 { l0 := 1 }) := by decide

/-- Select codes 0x30 to 0x32, tags in `kind_a` and `kind_t`. -/
theorem test_decode_values :
    decode (.command { cmd := 0b110000#6, kindA := 4, a := 0x80 }) = .ok (.upcast (.kind .int8) 0x80) ∧
    decode (.command { cmd := 0b110001#6, kindA := 3, a := 257, kindT := 0 }) = .ok (.downcast (.kind .uint64) 257 (.kind .uint8)) ∧
    decode (.command { cmd := 0b110001#6, kindA := 9, a := 1, kindT := 18 }) = .ok (.downcast (.kind .float64) 1 (.unassigned 18)) ∧
    decode (.command { cmd := 0b110010#6, kindA := 17 }) = .ok (.kindInfo (.kind .method)) := by decide

/-- Select codes 0x38, 0x39, 0x3A and 0x3F. -/
theorem test_decode_thread :
    decode (.command { cmd := 0b111000#6 }) = .ok (.step) ∧
    decode (.command { cmd := 0b111001#6 }) = .ok (.run) ∧
    decode (.command { cmd := 0b111010#6, a := 4 }) = .ok (.runFor 4) ∧
    decode (.command { cmd := 0b111111#6, a := 1, b := 2, buffer := [0x00] }) = .ok (.construct [0x00] 1 2) := by decide

/-- The eighteen tags of 30_encoding.md R89, and the first number that is none. -/
theorem test_decode_tags :
    (List.range 19).map (fun n => decodeKindTag (BitVec.ofNat 5 n)) =
      [.kind .uint8, .kind .uint16, .kind .uint32, .kind .uint64, .kind .int8, .kind .int16,
        .kind .int32, .kind .int64, .kind .float32, .kind .float64, .kind .boolean, .kind .string,
        .kind .list, .kind .map, .kind .struct, .kind .class_, .kind .function, .kind .method,
        .unassigned 18] := by decide

/-- A code R95 does not list is rejected by name. -/
theorem test_decode_rejects : decode (.command { cmd := 0x0A }) = .error (.notACommand 0x0A) := by
  decide

/-- Table words, opcode bytes and select codes (log 16). -/
theorem test_table_words :
    decodeTableWord 8 0x00 = some .noOp ∧ decodeTableWord 8 0x80 = some (.undefined80FF 0) ∧
    decodeTableWord 6 0x38 = some .step ∧ decodeTableWord 6 0x11 = some .fetchI8 := by decide

/-- A placed opcode byte is the first instruction the next step runs (log 17). -/
theorem test_withFetchWord :
    answer (step (State.reset.withFetchWord 8 0x00)) = some (okResponse, 1) ∧
    answer (step (State.reset.withFetchWord 8 0x80)) =
      some (errorResponse .operationUndefined, 1) := by decide

/-! ### The opcode rows (44_opcodes.md R270, R271) -/

theorem test_noOp : answer (exec (.noOp) (thread [] 3)) = some (okResponse, 3) := by decide
theorem test_undefined80FF : answer (exec (.undefined80FF 0) (thread [] 3)) = some (errorResponse .operationUndefined, 3) := by decide
theorem test_undefined407F : answer (exec (.undefined407F 1) (thread [] 3)) = some (errorResponse .operationUndefined, 3) := by decide
theorem test_undefined203F : answer (exec (.undefined203F 0b01010) (thread [] 3)) = some (errorResponse .operationUndefined, 3) := by decide
theorem test_undefined101F : answer (exec (.undefined101F 0b1000) (thread [] 3)) = some (errorResponse .operationUndefined, 3) := by decide
theorem test_undefined080F : answer (exec (.undefined080F 0b111) (thread [] 3)) = some (errorResponse .operationUndefined, 3) := by decide
theorem test_undefined0407 : answer (exec (.undefined0407 0b11) (thread [] 3)) = some (errorResponse .operationUndefined, 3) := by decide
theorem test_undefined0203 : answer (exec (.undefined0203 0) (thread [] 3)) = some (errorResponse .operationUndefined, 3) := by decide
theorem test_undefined0101 : answer (exec (.undefined0101) (thread [] 3)) = some (errorResponse .operationUndefined, 3) := by decide

/-! ### Unsigned fetches (tables 2.1 and 2.2) -/

theorem test_fetchU8 :
    answer (exec (.fetchU8 1) threadB) = some (fetched 0x34 2, 0) ∧
    answer (exec (.fetchU8 9) threadB) =
      some (notFetched (.notEnoughBytes 1) 9, 0) := by decide
theorem test_fetchU16 :
    answer (exec (.fetchU16 1) threadB) = some (fetched 0x3456 3, 0) ∧
    answer (exec (.fetchU16 8) threadB) =
      some (notFetched (.notEnoughBytes 2) 8, 0) := by decide
theorem test_fetchU24 :
    answer (exec (.fetchU24 1) threadB) = some (fetched 0x345678 4, 0) ∧
    answer (exec (.fetchU24 7) threadB) =
      some (notFetched (.notEnoughBytes 3) 7, 0) := by decide
theorem test_fetchU32 :
    answer (exec (.fetchU32 1) threadB) = some (fetched 0x3456789a 5, 0) ∧
    answer (exec (.fetchU32 6) threadB) =
      some (notFetched (.notEnoughBytes 4) 6, 0) := by decide
theorem test_fetchU40 :
    answer (exec (.fetchU40 1) threadB) = some (fetched 0x3456789abc 6, 0) ∧
    answer (exec (.fetchU40 5) threadB) =
      some (notFetched (.notEnoughBytes 5) 5, 0) := by decide
theorem test_fetchU48 :
    answer (exec (.fetchU48 1) threadB) = some (fetched 0x3456789abcde 7, 0) ∧
    answer (exec (.fetchU48 4) threadB) =
      some (notFetched (.notEnoughBytes 6) 4, 0) := by decide
theorem test_fetchU56 :
    answer (exec (.fetchU56 1) threadB) = some (fetched 0x3456789abcdef0 8, 0) ∧
    answer (exec (.fetchU56 3) threadB) =
      some (notFetched (.notEnoughBytes 7) 3, 0) := by decide
theorem test_fetchU64 :
    answer (exec (.fetchU64 1) threadB) = some (fetched 0x3456789abcdef011 9, 0) ∧
    answer (exec (.fetchU64 2) threadB) =
      some (notFetched (.notEnoughBytes 8) 2, 0) := by decide
theorem test_fetchU8_no_wrap :
    answer (exec (.fetchU8 0x7FFFFFFFFFFFFFFF) threadB) =
      some (notFetched (.notEnoughBytes 1) 0x7FFFFFFFFFFFFFFF, 0) := by decide
theorem test_fetchN :
    answer (exec (.fetchN 3 3) threadB) = some (fetched 0x789ABC 6, 0) ∧
    answer (exec (.fetchN 9 0) threadB) = some (fetched 0 9, 0) ∧
    answer (exec (.fetchN 8 2) threadB) = some (notFetched (.notEnoughBytes 2) 8, 0) := by decide
theorem test_fetchN_errors :
    answer (exec (.fetchN (-5) (-1)) threadB) = some (notFetched .fetchUnderflow (-5), 0) ∧
    answer (exec (.fetchN (-1) 9) threadB) = some (notFetched .fetchOverflow (-1), 0) ∧
    answer (exec (.fetchN 10 0) threadB) = some (notFetched (.notEnoughBytes 0) 10, 0) := by decide

/-! ### Signed fetches and dispatchers (tables 2.5 and 2.6) -/

theorem test_fetchI8 :
    answer (exec .fetchI8 (threadC 0)) = some (fetched (-128) 1, 1) ∧
    answer (exec .fetchI8 (threadC 1)) = some (fetched 1 2, 2) := by decide
theorem test_fetchI8_short :
    answer (exec .fetchI8 (threadC 9)) =
      some (errorResponse (.notEnoughBytes 1), 9) := by decide
theorem test_fetchI16 :
    answer (exec .fetchI16 (threadC 0)) = some (fetched (-32767) 2, 2) ∧
    answer (exec .fetchI16 (threadC 1)) = some (fetched 511 3, 3) := by decide
theorem test_fetchI16_short :
    answer (exec .fetchI16 (threadC 8)) =
      some (errorResponse (.notEnoughBytes 2), 8) := by decide
theorem test_fetchI24 :
    answer (exec .fetchI24 (threadC 0)) = some (fetched (-8388097) 3, 3) ∧
    answer (exec .fetchI24 (threadC 1)) = some (fetched 130943 4, 4) := by decide
theorem test_fetchI24_short :
    answer (exec .fetchI24 (threadC 7)) =
      some (errorResponse (.notEnoughBytes 3), 7) := by decide
theorem test_fetchI32 :
    answer (exec .fetchI32 (threadC 0)) = some (fetched (-2147352705) 4, 4) ∧
    answer (exec .fetchI32 (threadC 1)) = some (fetched 33521408 5, 5) := by decide
theorem test_fetchI32_short :
    answer (exec .fetchI32 (threadC 6)) =
      some (errorResponse (.notEnoughBytes 4), 6) := by decide
theorem test_fetchI40 :
    answer (exec .fetchI40 (threadC 0)) = some (fetched (-549722292480) 5, 5) ∧
    answer (exec .fetchI40 (threadC 1)) = some (fetched 8581480576 6, 6) := by decide
theorem test_fetchI40_short :
    answer (exec .fetchI40 (threadC 5)) =
      some (errorResponse (.notEnoughBytes 5), 5) := by decide
theorem test_fetchI48 :
    answer (exec .fetchI48 (threadC 0)) = some (fetched (-140728906874752) 6, 6) ∧
    answer (exec .fetchI48 (threadC 1)) = some (fetched 2196859027711 7, 7) := by decide
theorem test_fetchI48_short :
    answer (exec .fetchI48 (threadC 4)) =
      some (errorResponse (.notEnoughBytes 6), 4) := by decide
theorem test_fetchI56 :
    answer (exec .fetchI56 (threadC 0)) = some (fetched (-36026600159936257) 7, 7) ∧
    answer (exec .fetchI56 (threadC 1)) = some (fetched 562395911094271 8, 8) := by decide
theorem test_fetchI56_short :
    answer (exec .fetchI56 (threadC 3)) =
      some (errorResponse (.notEnoughBytes 7), 3) := by decide
theorem test_fetchI64 :
    answer (exec .fetchI64 (threadC 0)) = some (fetched (-9222809640943681537) 8, 8) ∧
    answer (exec .fetchI64 (threadC 1)) = some (fetched 143973353240133631 9, 9) := by decide
theorem test_fetchI64_short :
    answer (exec .fetchI64 (threadC 2)) =
      some (errorResponse (.notEnoughBytes 8), 2) := by decide
theorem test_fetchSigned :
    answer (exec (.fetchSigned 3) (threadC 0)) = some (fetched (-8388097) 3, 3) ∧
    answer (exec (.fetchSigned 1) (threadC 9)) =
      some (errorResponse (.notEnoughBytes 1), 9) := by decide
theorem test_fetchSigned_size :
    answer (exec (.fetchSigned 0) (threadC 0)) =
      some (errorResponse (.invalidImmediateSize 0), 0) ∧
    answer (exec (.fetchSigned 9) (threadC (-1))) =
      some (errorResponse (.invalidImmediateSize 9), -1) := by decide
theorem test_fetchUnsigned :
    answer (exec (.fetchUnsigned 3) (threadC 0)) = some (fetched 8389119 3, 3) ∧
    answer (exec (.fetchUnsigned 2) (threadC 8)) =
      some (errorResponse (.notEnoughBytes 2), 8) := by decide
theorem test_fetchUnsigned_size :
    answer (exec (.fetchUnsigned (-1)) (threadC 0)) =
      some (errorResponse (.invalidImmediateSize (-1)), 0) := by decide

/-! ### Writers (table 2.3) -/

theorem test_writeU8 :
    written (exec (.writeU8 0x1FF) (withSink 8 none)) =
      some ([0xFF], wrote 1) := by decide
theorem test_writeU16 :
    written (exec (.writeU16 0x0102030405060708) (withSink 8 none)) =
      some ([0x07, 0x08], wrote 2) := by decide
theorem test_writeU24 :
    written (exec (.writeU24 0x12345678) (withSink 8 none)) =
      some ([0x34, 0x56, 0x78], wrote 3) := by decide
theorem test_writeU32 :
    written (exec (.writeU32 0xAABBCCDDEEFF) (withSink 8 none)) =
      some ([0xCC, 0xDD, 0xEE, 0xFF], wrote 4) := by decide
theorem test_writeU40 :
    written (exec (.writeU40 0xFFFFFFFFFFFFFFFF) (withSink 8 none)) =
      some ([0xFF, 0xFF, 0xFF, 0xFF, 0xFF], wrote 5) := by decide
theorem test_writeU48 :
    written (exec (.writeU48 0x0102030405060708) (withSink 8 none)) =
      some ([0x03, 0x04, 0x05, 0x06, 0x07, 0x08], wrote 6) := by decide
theorem test_writeU56 :
    written (exec (.writeU56 0x0102030405060708) (withSink 8 none)) =
      some ([0x02, 0x03, 0x04, 0x05, 0x06, 0x07, 0x08], wrote 7) := by decide
theorem test_writeU64 :
    written (exec (.writeU64 0) (withSink 8 none)) =
      some ([0, 0, 0, 0, 0, 0, 0, 0], wrote 8) := by decide
theorem test_writeU32_short :
    written (exec (.writeU32 0xDEADBEEF) (withSink 2 none)) = some ([0xDE, 0xAD], wrote 2) ∧
    written (exec (.writeU32 0xDEADBEEF) (withSink 2 (some 7))) =
      some ([0xDE, 0xAD], { errorResponse (.sinkError 7) with res2 := 2 }) := by decide

/-! ### Minimal width (table 2.4) -/

theorem test_writeVarInt :
    written (exec (.writeVarInt 0xFFFF) (withSink 8 none)) = some ([0xFF, 0xFF], wrote 2) ∧
    written (exec (.writeVarInt 0x10000) (withSink 8 none)) =
      some ([0x01, 0x00, 0x00], wrote 3) := by decide
theorem test_unsignedByteSize :
    [0x0, 0xFF, 0x100, 0xFFFF, 0x10000, 0xFFFFFF, 0x1000000, 0xFFFFFFFF, 0x100000000, 0xFFFFFFFFFF,
      0x10000000000, 0xFFFFFFFFFFFF, 0x1000000000000, 0xFFFFFFFFFFFFFF, 0x100000000000000,
      0xFFFFFFFFFFFFFFFF].map (fun u => valueOf (exec (.unsignedByteSize u) (thread [] 0))) =
    [1, 1, 2, 2, 3, 3, 4, 4, 5, 5, 6, 6, 7, 7, 8, 8].map (fun k => some (0, k)) := by decide +kernel
theorem test_unsignedToBytes :
    answer (exec (.unsignedToBytes 0) (thread [] 0)) = some (wrote 1, 0) ∧
    answer (exec (.unsignedToBytes 0x1234) (thread [] 0)) =
      some ({ wrote 2 with lanes := { l0 := 0x12, l1 := 0x34 } }, 0) := by decide +kernel
theorem test_unsignedFromBytes :
    valueOf (exec (.unsignedFromBytes 3 { l0 := 0x00, l1 := 0x01, l2 := 0x00, l3 := 0xFF })
      (thread [] 0)) = some (0, 256) := by decide
theorem test_unsignedFromBytes_refused :
    refusalOf (exec (.unsignedFromBytes 0 {}) (thread [] 0)) = some (.byteSequenceLength 0) ∧
    refusalOf (exec (.unsignedFromBytes 9 {}) (thread [] 0)) = some (.byteSequenceLength 9) := by
  decide

/-! ### Value conversions (tables 2.7 to 2.12) -/

theorem test_upcast_integers :
    valueOf (exec (.upcast (.kind .uint8) 0xFF) (thread [] 0)) = some (3, 255) ∧
    valueOf (exec (.upcast (.kind .int8) 0x80) (thread [] 0)) = some (7, 0xFFFFFFFFFFFFFF80) ∧
    valueOf (exec (.upcast (.kind .int16) 0x8000) (thread [] 0)) = some (7, -32768) ∧
    valueOf (exec (.upcast (.kind .int32) 0xFFFFFFFF) (thread [] 0)) = some (7, -1) := by decide
theorem test_upcast_floats :
    valueOf (exec (.upcast (.kind .float32) 0x3DCCCCCD) (thread [] 0)) =
      some (9, 0x3FB99999A0000000) ∧
    valueOf (exec (.upcast (.kind .float32) 0x007FFFFF) (thread [] 0)) =
      some (9, 0x380FFFFFC0000000) ∧
    valueOf (exec (.upcast (.kind .float32) 0xFF800000) (thread [] 0)) =
      some (9, 0xFFF0000000000000) ∧
    valueOf (exec (.upcast (.kind .float64) 0x7FF8000000000001) (thread [] 0)) =
      some (9, 0x7FF8000000000001) := by decide +kernel
theorem test_kindInfo :
    valueOf (exec (.kindInfo (.kind .int16)) (thread [] 0)) = some (5, 2) ∧
    valueOf (exec (.kindInfo (.kind .float64)) (thread [] 0)) = some (9, 8) ∧
    refusalOf (exec (.kindInfo (.kind .boolean)) (thread [] 0)) =
      some (.kindInfoOperand (.kind .boolean)) := by decide
theorem test_downcast_values :
    valueOf (exec (.downcast (.kind .uint64) 257 (.kind .uint8)) (thread [] 0)) = some (0, 1) ∧
    valueOf (exec (.downcast (.kind .int64) (-2) (.kind .uint8)) (thread [] 0)) = some (0, 254) ∧
    valueOf (exec (.downcast (.kind .int64) (-32769) (.kind .int16)) (thread [] 0)) =
      some (5, 0x7FFF) ∧
    valueOf (exec (.downcast (.kind .uint64) 0x123456789ABCDEF0 (.kind .int32)) (thread [] 0)) =
      some (6, 0x9ABCDEF0) ∧
    valueOf (exec (.downcast (.kind .uint64) 1152921573326323713 (.kind .float32)) (thread [] 0)) =
      some (8, 0x5D800001) ∧
    valueOf (exec (.downcast (.kind .int64) (-9007199254740995) (.kind .float64)) (thread [] 0)) =
      some (9, 0xC340000000000002) ∧
    valueOf (exec (.downcast (.kind .float64) 0x369000001AD7F29B (.kind .float32)) (thread [] 0)) =
      some (8, 1) ∧
    valueOf (exec (.downcast (.kind .float64) 0x47EFFFFFF0000000 (.kind .float32)) (thread [] 0)) =
      some (8, 0x7F800000) ∧
    valueOf (exec (.downcast (.kind .float64) 0xB66244CE242C5561 (.kind .float32)) (thread [] 0)) =
      some (8, 0x80000000) ∧
    valueOf (exec (.downcast (.kind .float64) 0xBFF0000000000000 (.kind .uint8)) (thread [] 0)) =
      some (0, 255) ∧
    valueOf (exec (.downcast (.kind .float64) 0x4415AF1D78B58C40 (.kind .uint64)) (thread [] 0)) =
      some (3, 7766279631452241920) ∧
    valueOf (exec (.downcast (.kind .float64) 0x8000000000000001 (.kind .int32)) (thread [] 0)) =
      some (6, 0) := by decide +kernel
theorem test_downcast_errors :
    answer (exec (.downcast (.kind .float64) 0x7FF8000000000000 (.kind .method)) (thread [] 0)) =
      some ({ status := 7, infoA := 9, infoB := 17 }, 0) ∧
    answer (exec (.downcast (.kind .uint64) 0 (.unassigned 18)) (thread [] 0)) =
      some ({ status := 7, infoA := 3, infoB := 18 }, 0) ∧
    refusalOf (exec (.downcast (.kind .float32) 0 (.kind .uint8)) (thread [] 0)) =
      some (.downcastOperand (.kind .float32)) := by decide

/-! ### The thread (table 2.13, programs P1, P2 and P5) -/

theorem test_step :
    answer (exec .step (thread [0x00] 0)) = some (okResponse, 1) ∧
    answer (exec .step (thread [0x07] 0)) = some (errorResponse .operationUndefined, 1) := by decide
theorem test_step_out_of_range :
    answer (exec .step (thread [0x00] 1)) = some (errorResponse .bytecodeOverflow, 1) ∧
    answer (exec .step (thread [0x00, 0x00] (-3))) =
      some (errorResponse .bytecodeOverflow, -3) := by decide
theorem test_run :
    answer (exec .run (thread [0x00, 0x00, 0x00] 0)) = some (errorResponse .bytecodeOverflow, 3) ∧
    answer (exec .run (thread [] 0)) = some (errorResponse .bytecodeOverflow, 0) := by decide
theorem test_run_fault :
    answer (exec .run (thread [0x00, 0x00, 0x07, 0x00, 0x00] 0)) =
      some (errorResponse .operationUndefined, 3) ∧
    answer (exec .run (thread [0x00, 0x00, 0x07, 0x00, 0x00] 3)) =
      some (errorResponse .bytecodeOverflow, 5) := by decide
theorem test_runFor :
    answer (exec (.runFor 2) (thread [0x00, 0x00, 0x00] 0)) = some (okResponse, 2) ∧
    answer (exec (.runFor 2) (thread [0x00, 0x00, 0x00] 2)) =
      some (errorResponse .bytecodeOverflow, 3) := by decide
theorem test_runFor_none :
    answer (exec (.runFor (-1)) (thread [0x00, 0x00] (-3))) = some (okResponse, -3) ∧
    answer (exec (.runFor 0) (thread [0x00, 0x00] 5)) = some (okResponse, 5) := by decide
theorem test_construct :
    nextState (exec (.construct [0x00, 0x2A] 5 7) (thread [0xFF] 1)) =
      some { thread [0x00, 0x2A] 5 with machineRef := 7 } := by decide
theorem test_hardReset_keeps_sink :
    (nextState (step { thread [0x00] 1 with port := [.reset], sink := [0xAB] })).map (·.sink) =
      some [0xAB] := by decide
theorem test_memory_wf :
    State.reset.buf.wf = true ∧ (Memory.write [(1, 0x0A)] 1 0).wf = true ∧
    Memory.write [(1, 0x0A)] 1 0 = [] := by decide

/-! ### Witnesses: the hypotheses of each statement can be met

Where a statement has several clauses, each has its witness, at the ends of the clause's range. -/

/-- A state with one command issued. -/
def issuing (s : State) (c : CommandRecord) : State := { s with port := [.command c] }

/-- Hypotheses of StepRunsIssuedCommand. -/
theorem witness_step_runs_issued :
    (issuing threadB { cmd := 0x03, a := 5 }).port = .command { cmd := 0x03, a := 5 } :: [] ∧
    decodeCommand { cmd := 0x03, a := 5 } = .ok (.fetchU24 5) := by decide

/-- Hypotheses of StepRunsOpcodeAtPc, at the first and at the last index. -/
theorem witness_step_runs_opcode_first :
    let s := issuing (thread [0x00, 0x07] 0) { cmd := 0x38 }
    s.port = .command { cmd := 0x38 } :: [] ∧ 0 ≤ s.pc.toInt ∧ s.pc.toInt < s.length := by decide
theorem witness_step_runs_opcode_last :
    let s := issuing (thread [0x00, 0x07] 1) { cmd := 0x38 }
    s.port = .command { cmd := 0x38 } :: [] ∧ 0 ≤ s.pc.toInt ∧ s.pc.toInt < s.length := by decide

/-- Hypotheses of ExactlyTheListedCodesAreCommands: its two clauses, codes at the ends. -/
theorem witness_listed_codes :
    (issuing State.reset { cmd := 0x01 }).port = .command { cmd := 0x01 } :: [] ∧
    (0x01#6).toNat ∈ commandCodes ∧ (0x3F#6).toNat ∈ commandCodes ∧
    (0x00#6).toNat ∉ commandCodes ∧ (0x3E#6).toNat ∉ commandCodes := by decide

/-- Hypothesis of EncodedInstructionDecodesBack. -/
theorem witness_encoded :
    Instr.wf (.downcast (.unassigned 18) 5 (.unassigned 31)) = true ∧
    Instr.wf (.construct [0x00, 0xFF] 1 2) = true := by decide

/-- Hypothesis of ResetGivesTheEmptyThread. -/
theorem witness_reset : ({ threadB with port := [.reset] } : State).port = .reset :: [] := by decide

/-- Hypotheses of ResetAndConstructValues and of both clauses of ConstructReplacesTheThread: a buffer
that may be bound, and one byte too many. -/
theorem witness_construct :
    ([0x00, 0xFF] : List Byte).length ≤ maxBufferLength ∧
    (List.replicate (2 ^ 63 - 1) (0 : Byte)).length ≤ maxBufferLength ∧
    maxBufferLength < (List.replicate (2 ^ 63) (0 : Byte)).length := by
  simp only [List.length_replicate]; decide

/-- The thread `B` has the invariant. -/
theorem witness_invariant : threadB.Inv := ⟨by decide, by decide, by decide⟩

/-- Hypotheses of EveryStepKeepsTheInvariant, PcStaysInRange, StackStaysEmpty and SinkOnlyGrows: a
step that is no `Construct` and gives a next state, from a state with the invariant, `PC` in range
and the stack empty. -/
theorem witness_step_next :
    (issuing threadB { cmd := 0x12 }).Inv ∧ (issuing threadB { cmd := 0x12 }).pcInRange ∧
    (issuing threadB { cmd := 0x12 }).stack = [] ∧
    (∀ c rest, (issuing threadB { cmd := 0x12 }).port = .command c :: rest → c.cmd ≠ 0x3F) ∧
    nextState (step (issuing threadB { cmd := 0x12 })) =
      some ({ threadB with pc := 2 }.respond (fetched 0x1234 2)) := by
  refine ⟨⟨by decide, by decide, by decide⟩, ⟨by decide, by decide⟩, rfl, ?_, by decide⟩
  intro c rest h
  obtain ⟨rfl, -⟩ : c = { cmd := 0x12 } ∧ rest = [] := by simpa [issuing, eq_comm] using h
  decide

/-- A stack of one value, as no run reaches it. -/
def stacked (input : Input) : State :=
  { thread [0x00] 0 with stack := [{ kind := .int64, payload := 5 }], port := [input] }

/-- Hypotheses of the clauses of StackStaysEmpty: a step that keeps a stack that is not empty, and the
two inputs that empty it. -/
theorem witness_stack :
    (nextState (step (stacked (.command { cmd := 0x38 })))).map (·.stack) =
      some (stacked .reset).stack ∧
    (nextState (step (stacked .reset))).map (·.stack) = some [] ∧
    (nextState (step (stacked (.command { cmd := 0x3F })))).map (·.stack) = some [] := by decide
theorem witness_replaces_thread :
    (stacked .reset).replacesThread ∧ (stacked (.command { cmd := 0x3F })).replacesThread :=
  ⟨.inl ⟨[], rfl⟩, .inr ⟨{ cmd := 0x3F }, [], rfl, rfl⟩⟩
theorem witness_stack_fits : threadB.stackFits := fun _ _ => Nat.zero_le _

/-- The same at the end of the buffer, where the step ends in an error value. -/
theorem witness_step_next_at_end :
    (issuing (thread [0x07] 1) { cmd := 0x38 }).pcInRange ∧
    nextState (step (issuing (thread [0x07] 1) { cmd := 0x38 })) =
      some ((thread [0x07] 1).raise .bytecodeOverflow) := ⟨⟨by decide, by decide⟩, by decide⟩

/-- Hypotheses of OnlyTheListedCommandsWritePc, BufferIsImmutable, MachineRefIsOpaque and
PureCommandsChangeOnlyTheResponse. -/
theorem witness_pure :
    writesPc (.fetchU16 0) = false ∧ writesSink (.fetchU16 0) = false ∧
    isConstruct (.fetchU16 0) = false ∧
    nextState (exec (.fetchU16 0) threadB) = some (threadB.respond (fetched 0x1234 2)) := by decide

/-- Hypotheses of ThreadCommandsChangeOnlyPcAndResponse. -/
theorem witness_thread_command :
    writesPc .fetchI16 = true ∧ isConstruct .fetchI16 = false ∧
    nextState (exec .fetchI16 threadB) = some ((threadB.setPc 2).respond (fetched 0x1234 2)) := by
  decide

/-- Hypotheses of WritersChangeOnlyTheSinkAndResponse. -/
theorem witness_writer :
    writesSink (.writeU8 0x41) = true ∧
    nextState (exec (.writeU8 0x41) (withSink 1 none)) =
      some { thread [] 0 with sink := [0x41], response := wrote 1 } := by decide

/-- Hypotheses of FetchUReadsBigEndian: the narrowest and the widest fetch, ending at `L`. -/
theorem witness_fetchU :
    (1, .fetchU8 8) ∈ fetchUForms 8 ∧ 0 ≤ (8 : Word).toInt ∧
    (8 : Word).toInt + (1 : Nat) ≤ threadB.length ∧
    (8, .fetchU64 1) ∈ fetchUForms 1 ∧ 0 ≤ (1 : Word).toInt ∧
    (1 : Word).toInt + (8 : Nat) ≤ threadB.length := by decide

/-- Hypotheses of FetchUOutOfBoundsFails (below 0, and one byte past `L`), and with the same forms of
FetchNAgreesWithFetchU. -/
theorem witness_fetchU_out :
    (1, .fetchU8 (-1)) ∈ fetchUForms (-1) ∧
    ¬ (0 ≤ (-1 : Word).toInt ∧ (-1 : Word).toInt + (1 : Nat) ≤ threadB.length) ∧
    (8, .fetchU64 2) ∈ fetchUForms 2 ∧
    ¬ (0 ≤ (2 : Word).toInt ∧ (2 : Word).toInt + (8 : Nat) ≤ threadB.length) := by decide

/-- Hypotheses of WideReadSplits, the shortest and the longest earlier part. -/
theorem witness_wide_read :
    0 < 1 ∧ 1 < 8 ∧ 8 ≤ 8 ∧ threadB.inBounds 1 8 = true ∧ 0 < 7 ∧ 7 < 8 := by decide

/-- Hypotheses of FetchIReadsTwosComplement and SignedAndUnsignedReadingsAgree. -/
theorem witness_fetchI :
    (1, .fetchI8) ∈ fetchIForms ∧ 0 ≤ (threadC 8).pc.toInt ∧
    (threadC 8).pc.toInt + (1 : Nat) ≤ (threadC 8).length ∧
    (8, .fetchI64) ∈ fetchIForms ∧ 0 ≤ (threadC 1).pc.toInt ∧
    (threadC 1).pc.toInt + (8 : Nat) ≤ (threadC 1).length := by decide

/-- The success clause of SignedAndUnsignedReadingsAgree is met. -/
theorem witness_fetchI_succeeds :
    (nextState (exec .fetchI16 (threadC 0))).map (·.response.status) = some 0 := by decide

/-- Hypotheses of FetchIOutOfBoundsFails. -/
theorem witness_fetchI_out :
    (1, .fetchI8) ∈ fetchIForms ∧
    ¬ (0 ≤ (threadC 9).pc.toInt ∧ (threadC 9).pc.toInt + (1 : Nat) ≤ (threadC 9).length) ∧
    (8, .fetchI64) ∈ fetchIForms ∧
    ¬ (0 ≤ (threadC 2).pc.toInt ∧ (threadC 2).pc.toInt + (8 : Nat) ≤ (threadC 2).length) := by decide

/-- Hypotheses of SignMasksExtendTheSign, on each side of the sign bit. -/
theorem witness_masks :
    0x7FFFFF < 2 ^ 24 ∧ 0x800000 < 2 ^ 24 ∧ 0x8000000000 < 2 ^ 40 ∧ 0x800000000000 < 2 ^ 48 ∧
    0x80000000000000 < 2 ^ 56 := by decide

/-- Hypotheses of the three clauses of FetchSignedDispatches, counts at the ends of each range. -/
theorem witness_fetchSigned :
    ((0 : Word).toInt < 1 ∨ 8 < (0 : Word).toInt) ∧ ((9 : Word).toInt < 1 ∨ 8 < (9 : Word).toInt) ∧
    (1, .fetchI8) ∈ fetchIForms ∧ (1 : Word).toInt = (1 : Nat) ∧
    (8, .fetchI64) ∈ fetchIForms ∧ (8 : Word).toInt = (8 : Nat) ∧
    1 ≤ (8 : Word).toInt ∧ (8 : Word).toInt ≤ 8 ∧ 0 ≤ (threadC 1).pc.toInt ∧
    (threadC 1).pc.toInt + (8 : Word).toInt ≤ (threadC 1).length := by decide

/-- Hypotheses of WritersOfferTheirBytes, and of its two clauses. -/
theorem witness_writers :
    (1, .writeU8 5) ∈ writeUForms 5 ∧ (8, .writeU64 5) ∈ writeUForms 5 ∧
    (withSink 8 none).sinkAnswer.error = none ∧ (withSink 2 (some 7)).sinkAnswer.error = some 7 := by
  decide

/-- The inner hypotheses of WriteVarIntPicksTheLeastWidth, ByteSizeIsTheLeastWidth and the last clause
of ToBytesReturnsTheMinimalBytes. -/
theorem witness_least_width :
    1 ≤ 2 ∧ (0x100 : Word).toNat ≤ 2 ^ (8 * 2) - 1 ∧ (0x100 : Word) ≠ 0 := by decide

/-- Hypotheses of FixedWidthRoundTrip. -/
theorem witness_fixed_round_trip :
    (8, .writeU64 5) ∈ writeUForms 5 ∧ (8, .fetchU64 1) ∈ fetchUForms (BitVec.ofNat 64 1) ∧
    ([0xAA] : List Byte).length = 1 ∧ (withSink 8 none).sinkAnswer.error = none ∧
    8 ≤ (withSink 8 none).sinkAnswer.count ∧
    ([0xAA] : List Byte).length + 8 + ([0xBB] : List Byte).length ≤ maxBufferLength := by decide

/-- Hypotheses of MinimalWidthRoundTrip. -/
theorem witness_minimal_round_trip :
    (withSink 8 none).sinkAnswer.error = none ∧ 8 ≤ (withSink 8 none).sinkAnswer.count ∧
    ([] : List Byte).length + 8 + ([] : List Byte).length ≤ maxBufferLength := by decide

/-- Hypotheses of KindInfoReturnsTheSize, UpcastKeepsTheNumber and DowncastToReservedFails. -/
theorem witness_kinds :
    (.uint8, 1) ∈ numericKinds ∧ (.float64, 8) ∈ numericKinds ∧
    .boolean ∈ reservedKinds ∧ .method ∈ reservedKinds ∧
    (.uint8, 8) ∈ unsignedKinds ∧ (.uint64, 64) ∈ unsignedKinds ∧
    (.int8, 8) ∈ signedKinds ∧ (.int64, 64) ∈ signedKinds := by decide

/-- Hypotheses of UpcastFloat32IsExact: the smallest subnormal, the largest number, an infinity. -/
theorem witness_upcast_float :
    binary32.isNaN 0x00000001 = false ∧ binary32.isFinite 0x00000001 = true ∧
    binary32.isNaN 0xFF7FFFFF = false ∧ binary32.isFinite 0xFF7FFFFF = true ∧
    binary32.isNaN 0x7F800000 = false ∧ binary32.isInf 0x7F800000 = true := by decide

/-- Hypotheses of NaNConvertsToSomeNaN: the smallest and the largest NaN patterns. -/
theorem witness_nan :
    binary32.isNaN ((0x7F800001 : Word).toNat % 2 ^ 32) = true ∧
    binary32.isNaN ((0xFFFFFFFF : Word).toNat % 2 ^ 32) = true ∧
    binary64.isNaN (0x7FF0000000000001 : Word).toNat = true ∧
    binary64.isNaN (0xFFFFFFFFFFFFFFFF : Word).toNat = true := by decide

/-- Hypotheses of CastsOutsideTheDomainAreRefused: a reserved kind, and a source `Downcast` refuses. -/
theorem witness_casts_outside :
    (∀ k n, (k, n) ∈ numericKinds → KindTag.kind .list ≠ .kind k) ∧
    (∀ k n, (k, n) ∈ numericKinds → KindTag.unassigned 18 ≠ .kind k) ∧
    ∀ c, KindTag.kind .int8 ≠ .kind (canonicalKind c) := by
  refine ⟨?_, ?_, ?_⟩
  · intro k n h e
    cases e
    revert h
    simp [numericKinds]
  · intro k n _ h
    cases h
  · intro c h
    cases c <;> cases h

/-- Hypotheses of IntegerDowncastWraps and IntegerToFloatRoundsToNearest. -/
theorem witness_integer_downcast :
    integerOf .int64 0x8000000000000000 = some (-2 ^ 63) ∧ integerOf .uint64 0 = some 0 ∧
    (.uint8, 8) ∈ integerKinds ∧ (.int64, 64) ∈ integerKinds ∧
    (.float32, binary32) ∈ floatKinds ∧ (.float64, binary64) ∈ floatKinds := by decide

/-- The largest operand of Float64ToFloat32RoundsToNearest below the threshold meets its clause. -/
theorem witness_below_threshold :
    binary64.isNaN 0x47EFFFFFEFFFFFFF = false ∧ binary64.isFinite 0x47EFFFFFEFFFFFFF = true ∧
    |binary64.value 0x47EFFFFFEFFFFFFF| < binary32Threshold := by
  refine ⟨by decide, by decide, ?_⟩
  have h1 : binary64.sign 0x47EFFFFFEFFFFFFF = false := by decide
  have h2 : binary64.significand 0x47EFFFFFEFFFFFFF = 0x1FFFFFEFFFFFFF := by decide
  have h3 : binary64.exponent 0x47EFFFFFEFFFFFFF = ((75 : Nat) : Int) := by decide
  rw [FloatFormat.value, h1, h2, h3, zpow_natCast, binary32Threshold]
  norm_num

/-- The operand at the threshold, and an infinity, meet the other clause. -/
theorem witness_at_threshold :
    binary64.isNaN 0xC7EFFFFFF0000000 = false ∧
    binary32Threshold ≤ |binary64.value 0xC7EFFFFFF0000000| ∧
    binary64.isNaN 0x7FF0000000000000 = false ∧ binary64.isInf 0x7FF0000000000000 = true := by
  refine ⟨by decide, ?_, by decide, by decide⟩
  have h1 : binary64.sign 0xC7EFFFFFF0000000 = true := by decide
  have h2 : binary64.significand 0xC7EFFFFFF0000000 = 0x1FFFFFF0000000 := by decide
  have h3 : binary64.exponent 0xC7EFFFFFF0000000 = ((75 : Nat) : Int) := by decide
  rw [FloatFormat.value, h1, h2, h3, zpow_natCast, binary32Threshold]
  norm_num

/-- Hypotheses of FloatToIntegerTruncatesAndWraps and of NonFiniteToIntegerIsAFunction. -/
theorem witness_float_to_integer :
    (.uint8, 8) ∈ integerKinds ∧ binary64.isFinite (0xFFEFFFFFFFFFFFFF : Word).toNat = true ∧
    binary64.isFinite (0x7FF0000000000000 : Word).toNat = false ∧
    binary64.isFinite (0x7FF8000000000000 : Word).toNat = false := by decide

/-- Hypotheses of UpcastThenDowncastIsIdentity: its identity clause and its NaN clause. -/
theorem witness_upcast_downcast :
    (.int8, 1) ∈ numericKinds ∧ (0xFF : Word).toNat < 2 ^ (8 * 1) ∧
    ¬ (Kind.int8 = .float32 ∧ binary32.isNaN (0xFF : Word).toNat = true) ∧
    (.float32, 4) ∈ numericKinds ∧ (0xFFFFFFFF : Word).toNat < 2 ^ (8 * 4) ∧
    binary32.isNaN (0xFFFFFFFF : Word).toNat = true := by decide

/-- Hypothesis of OpcodeArms. -/
theorem witness_opcode_arm : Opcode.undefined0101 ≠ .noOp ∧ Opcode.undefined80FF 0x7F ≠ .noOp := by
  decide

/-- A thread whose one byte is the identifier of a named opcode. -/
def namedThread (o : NamedOpcode) : State := { thread [] 0 with buf := [(0, opid o)], len := 1 }

/-- Hypotheses of NamedOpcodesAreUndefined. -/
theorem witness_named_opcode :
    0 ≤ (namedThread .push).pc.toInt ∧ (namedThread .push).pc.toInt < (namedThread .push).length ∧
    (namedThread .push).buf.byteAt (namedThread .push).pc.toNat = opid .push :=
  ⟨by decide, by decide, rfl⟩

/-- Hypotheses of the first clause of RunClosedForm, below 0 and at `L`; and of RunAlwaysEnds. -/
theorem witness_run_out_of_range :
    (thread [0x00] (-1)).length ≤ maxBufferLength ∧ (thread [0x00] (-1)).pc.toInt < 0 ∧
    ((thread [0x00] 1).length : Int) ≤ (thread [0x00] 1).pc.toInt := by decide

/-- Hypotheses of its second clause: the bad byte at `PC`, and at the last index. -/
theorem witness_run_fault :
    (thread [0x07, 0x00] 0).pc.toInt = (0 : Nat) ∧ 0 < (thread [0x07, 0x00] 0).length ∧
    (thread [0x07, 0x00] 0).buf.byteAt 0 ≠ 0 ∧
    (thread [0x00, 0x07] 0).pc.toInt = (0 : Nat) ∧ 1 < (thread [0x00, 0x07] 0).length ∧
    (thread [0x00, 0x07] 0).buf.byteAt 1 ≠ 0 ∧
    ∀ i, i < 1 → (thread [0x00, 0x07] 0).buf.byteAt i = 0 := by decide

/-- Hypotheses of its third clause. -/
theorem witness_run_to_the_end :
    (thread [0x07, 0x00] 1).pc.toInt = (1 : Nat) ∧ 1 < (thread [0x07, 0x00] 1).length ∧
    (thread [0x07, 0x00] 1).length = 2 ∧ (thread [0x07, 0x00] 1).buf.byteAt 1 = 0 := by decide

/-- Hypotheses of the first two clauses of RunForClosedForm. -/
theorem witness_runFor_ends :
    (0 : Word).toInt ≤ 0 ∧ 0 < (1 : Word).toInt ∧ (thread [0x00] 2).pc.toInt = 2 ∧
    ¬ (thread [0x00] 2).pcInRange ∧ ¬ (thread [0x00] (-1)).pcInRange := by
  refine ⟨by decide, by decide, by decide, fun h => absurd h.2 (by decide), fun h => absurd h.1 ?_⟩
  decide

/-- Hypotheses of its third clause: budgets at and above the zero bytes, with a byte that ends them
and with the end of the buffer, and the resting place `PC = L`. -/
theorem witness_runFor_runs :
    0 < (2 : Word).toInt ∧ (thread [0x00, 0x00, 0x07] 0).pc.toInt = (0 : Nat) ∧
    0 + 2 ≤ (thread [0x00, 0x00, 0x07] 0).length ∧
    (∀ i, i < 2 → (thread [0x00, 0x00, 0x07] 0).buf.byteAt i = 0) ∧
    (thread [0x00, 0x00, 0x07] 0).buf.byteAt (0 + 2) ≠ 0 ∧
    (2 : Word).toInt ≤ (2 : Nat) ∧ ¬ (3 : Word).toInt ≤ (2 : Nat) ∧
    0 + 2 = (thread [0x00, 0x00] 0).length ∧
    (thread [0x00] 1).pc.toInt = (1 : Nat) ∧ 1 + 0 = (thread [0x00] 1).length := by decide

end Sys2Proof.Machine
end

/-! ### The scope: what a step runs (00_scope.md R9, 20_memory.md R58) -/

namespace Sys2Proof.Machine

/-- Taking the input leaves at the port what stood after it, and nothing else changes. -/
theorem State.takeInput_of_port {s : State} {input : Input} {rest : List Input}
    (port : s.port = input :: rest) : s.takeInput = { s with port := rest } := by
  rw [State.takeInput, port, List.tail_cons]

/-- The branch of the step an issued command with a meaning takes. -/
theorem step_of_decoded {s : State} {c : CommandRecord} {rest : List Input} {i : Instr}
    (port : s.port = .command c :: rest) (decoded : decodeCommand c = .ok i) :
    step s = exec i s.takeInput := by
  simp only [step, port, decoded]

/-- Settles O1: of the branches of the step, the issued command takes the decoded one. -/
theorem stepRunsIssuedCommand : Obligations.StepRunsIssuedCommand := by
  intro s c rest i port decoded
  calc step s = exec i s.takeInput := step_of_decoded port decoded
    _ = exec i { s with port := rest } := by rw [State.takeInput_of_port port]

end Sys2Proof.Machine

/-! ### The state: what every step keeps (10_state.md) -/

namespace Sys2Proof.Machine

/-! ### What a `Construct` leaves, and which commands are one (43_thread.md R240) -/

/-- The state a `Construct` leaves (43_thread.md R240): the name the proofs give the next state of
`execConstruct`. -/
def State.constructed (s : State) (buffer : List Byte) (pc0 ref : Word) : State :=
  { s with
    buf := Memory.ofBytes buffer
    len := BitVec.ofNat 64 buffer.length
    pc := pc0
    stack := []
    machineRef := ref }.respond okResponse

@[simp] theorem State.constructed_pc (s : State) (buffer : List Byte) (pc0 ref : Word) :
    (s.constructed buffer pc0 ref).pc = pc0 := rfl
@[simp] theorem State.constructed_stack (s : State) (buffer : List Byte) (pc0 ref : Word) :
    (s.constructed buffer pc0 ref).stack = [] := rfl
@[simp] theorem State.constructed_buf (s : State) (buffer : List Byte) (pc0 ref : Word) :
    (s.constructed buffer pc0 ref).buf = Memory.ofBytes buffer := rfl
@[simp] theorem State.constructed_machineRef (s : State) (buffer : List Byte) (pc0 ref : Word) :
    (s.constructed buffer pc0 ref).machineRef = ref := rfl
@[simp] theorem State.constructed_sink (s : State) (buffer : List Byte) (pc0 ref : Word) :
    (s.constructed buffer pc0 ref).sink = s.sink := rfl

/-- A legal length fits in `LEN`. -/
theorem State.constructed_length {s : State} {buffer : List Byte} {pc0 ref : Word}
    (short : buffer.length ≤ maxBufferLength) :
    (s.constructed buffer pc0 ref).length = buffer.length := by
  have fits : buffer.length < 2 ^ 64 := by
    unfold maxBufferLength at short
    omega
  exact (BitVec.toNat_ofNat ..).trans (Nat.mod_eq_of_lt fits)

theorem exec_construct_of_short {buffer : List Byte} (pc0 ref : Word) (s : State)
    (short : buffer.length ≤ maxBufferLength) :
    exec (.construct buffer pc0 ref) s = .next (s.constructed buffer pc0 ref) := if_pos short

/-- A `Construct` that answers has bound a legal buffer. -/
theorem constructed_of_exec_construct {buffer : List Byte} {pc0 ref : Word} {s t : State}
    (run : exec (.construct buffer pc0 ref) s = .next t) :
    buffer.length ≤ maxBufferLength ∧ t = s.constructed buffer pc0 ref := by
  by_cases short : buffer.length ≤ maxBufferLength
  · rw [exec_construct_of_short pc0 ref s short] at run
    cases run
    exact ⟨short, rfl⟩
  · have refusal : exec (.construct buffer pc0 ref) s = .refused (.bufferTooLong buffer.length) :=
      if_neg short
    rw [refusal] at run
    cases run

theorem decodeCommand_of_constructCode {c : CommandRecord} (code : c.cmd = 0x3F) :
    decodeCommand c = .ok (.construct c.buffer c.a c.b) := by
  simp [decodeCommand, code]

/-- `Construct` has the one select code 0x3F (30_encoding.md R95). -/
theorem isConstruct_eq_false_of_code_ne {c : CommandRecord} {i : Instr}
    (decoded : decodeCommand c = .ok i) (code : c.cmd ≠ 0x3F) : isConstruct i = false := by
  unfold decodeCommand at decoded
  split at decoded
  case h_38 constructCode => exact absurd (BitVec.eq_of_toNat_eq constructCode) code
  case h_39 => cases decoded
  all_goals
    cases decoded
    rfl

/-! ### What a step that gives a next state did -/

/-- The ways from a state to the next one: no input, a reset, a `Construct` of a legal buffer, or any
other command. -/
inductive State.StepsTo (s : State) : State → Prop where
  | idle (port : s.port = []) : State.StepsTo s s
  | reset (rest : List Input) (port : s.port = .reset :: rest) :
      State.StepsTo s s.takeInput.hardReset
  | construct (c : CommandRecord) (rest : List Input) (port : s.port = .command c :: rest)
      (code : c.cmd = 0x3F) (short : c.buffer.length ≤ maxBufferLength) :
      State.StepsTo s (s.takeInput.constructed c.buffer c.a c.b)
  | other (c : CommandRecord) (rest : List Input) (i : Instr) (t : State)
      (port : s.port = .command c :: rest) (code : c.cmd ≠ 0x3F) (isOther : isConstruct i = false)
      (run : exec i s.takeInput = .next t) : State.StepsTo s t

theorem State.stepsTo_of_step {s t : State} (h : step s = .next t) : s.StepsTo t := by
  rcases step_cases s with ⟨port, eq⟩ | ⟨rest, port, eq⟩ | ⟨c, rest, i, port, decoded, eq⟩ |
      ⟨c, rest, code, port, decoded, eq⟩
  · rw [eq] at h
    cases h
    exact .idle port
  · rw [eq] at h
    cases h
    exact .reset rest port
  · rw [eq] at h
    by_cases code : c.cmd = 0x3F
    · rw [decodeCommand_of_constructCode code] at decoded
      cases decoded
      obtain ⟨short, rfl⟩ := constructed_of_exec_construct h
      exact .construct c rest port code short
    · exact .other c rest i t port code (isConstruct_eq_false_of_code_ne decoded code) h
  · rw [eq] at h
    cases h

/-- No command but `Construct` changes the stack, the buffer, its length or `MACHINE_REF`. -/
theorem exec_keepsThread {i : Instr} {s t : State} (isOther : isConstruct i = false)
    (run : exec i s = .next t) :
    t.stack = s.stack ∧ t.buf = s.buf ∧ t.len = s.len ∧ t.machineRef = s.machineRef := by
  have shape := exec_shape i s
  rw [run] at shape
  cases shape with
  | answer r pure => exact ⟨rfl, rfl, rfl, rfl⟩
  | draw r draws => exact ⟨rfl, rfl, rfl, rfl⟩
  | thread v r writes => exact ⟨rfl, rfl, rfl, rfl⟩
  | sink n v atMost writes => simp
  | construct buffer pc0 ref isIt short =>
    subst isIt
    cases isOther

/-- Only the commands of the table of 10_state.md R23 change `PC`. -/
theorem exec_keepsPc {i : Instr} {s t : State} (noWrite : writesPc i = false)
    (run : exec i s = .next t) : t.pc = s.pc := by
  have shape := exec_shape i s
  rw [run] at shape
  cases shape with
  | answer r pure => rfl
  | draw r draws => rfl
  | thread v r writes =>
    obtain ⟨writes, -⟩ := writes
    rw [noWrite] at writes
    cases writes
  | sink n v atMost writes => simp
  | construct buffer pc0 ref isIt short =>
    subst isIt
    cases noWrite

/-- Settles O14. -/
theorem onlyTheListedCommandsWritePc : Obligations.OnlyTheListedCommandsWritePc :=
  fun _ _ _ noWrite run => exec_keepsPc noWrite run

/-! ### The invariant of the buffer (R29) -/

/-- Settles O10: the empty buffer has no entry to be out of order or out of bounds. -/
theorem invariantHoldsAtReset : Obligations.InvariantHoldsAtReset :=
  ⟨rfl, rfl, Nat.zero_le _⟩

/-- The invariant speaks of the buffer and its length only. -/
theorem State.Inv.of_sameBuffer {s t : State} (inv : s.Inv) (buf : t.buf = s.buf)
    (len : t.len = s.len) : t.Inv := by
  have length : t.length = s.length := congrArg BitVec.toNat len
  obtain ⟨canonical, within, legal⟩ := inv
  exact ⟨by rw [buf, canonical], by rw [buf, length, within], by rw [length]; exact legal⟩

theorem State.inv_hardReset (s : State) : s.hardReset.Inv := ⟨rfl, rfl, Nat.zero_le _⟩

theorem State.inv_constructed {s : State} {buffer : List Byte} {pc0 ref : Word}
    (short : buffer.length ≤ maxBufferLength) : (s.constructed buffer pc0 ref).Inv where
  canonical := Memory.ofBytes_wf buffer
  within := by rw [constructed_buf, constructed_length short]; exact Memory.below_ofBytes buffer
  lengthLegal := by rw [constructed_length short]; exact short

/-- Settles O11: a reset and a `Construct` lay out a new buffer with the invariant, and nothing else
reaches the buffer or its length. -/
theorem everyStepKeepsTheInvariant : Obligations.EveryStepKeepsTheInvariant := by
  intro s t inv h
  cases State.stepsTo_of_step h with
  | idle port => exact inv
  | reset rest port => exact s.takeInput.inv_hardReset
  | construct c rest port code short => exact State.inv_constructed short
  | other c rest i t port code isOther run =>
    obtain ⟨-, buf, len, -⟩ := exec_keepsThread isOther run
    exact inv.of_sameBuffer buf len

/-! ### The range of `PC` (R22) -/

/-- Below `2^63` the signed value of a cursor moves by what is added to it. -/
theorem toInt_add_ofNat {pc : Word} {k : Nat} (low : 0 ≤ pc.toInt)
    (high : pc.toInt + k ≤ (maxBufferLength : Int)) :
    (pc + BitVec.ofNat 64 k).toInt = pc.toInt + k := by
  unfold maxBufferLength at high
  rw [BitVec.toInt_add, BitVec.toInt_ofNat', Int.add_bmod_bmod]
  exact Int.bmod_eq_of_le (by omega) (by omega)

/-- `PC` moved over `k` bytes of the buffer is still in range. -/
theorem State.pcInRange_advance {s : State} {k : Nat} (legal : s.length ≤ maxBufferLength)
    (bounds : 0 ≤ s.pc.toInt ∧ s.pc.toInt + k ≤ s.length) :
    (s.setPc (s.pc + BitVec.ofNat 64 k)).pcInRange := by
  have moved : (s.pc + BitVec.ofNat 64 k).toInt = s.pc.toInt + k :=
    toInt_add_ofNat bounds.1 (by omega)
  constructor
  · rw [State.setPc_pc, moved]
    omega
  · rw [State.setPc_pc, State.setPc_length, moved]
    exact bounds.2

/-- The range of `PC` does not depend on the response. -/
theorem State.pcInRange_respond {s : State} (range : s.pcInRange) (r : Response) :
    (s.respond r).pcInRange := range

/-- If the outcome is a next state, its `PC` is in range. -/
def PcInRangeAfter (a : Result) : Prop := ∀ t, a = .next t → t.pcInRange

theorem pcInRangeAfter_next {t : State} (range : t.pcInRange) : PcInRangeAfter (.next t) := by
  intro u eq
  cases eq
  exact range

theorem State.fetchAtPc_pcInRange {s : State} (legal : s.length ≤ maxBufferLength)
    (range : s.pcInRange) (k : Nat) (deliver : Nat → Word) :
    PcInRangeAfter (s.fetchAtPc k deliver) := by
  rw [State.fetchAtPc_eq]
  split
  case isTrue bounds =>
    exact pcInRangeAfter_next (pcInRange_advance legal ((s.inBounds_iff _ _).1 bounds))
  case isFalse => exact pcInRangeAfter_next range

/-- Whatever the width `FetchSigned` routes to, it is a thread-level fetch. -/
theorem fetchSignedOfWidth_eq_fetchAtPc (n : Nat) :
    ∃ k deliver, fetchSignedOfWidth n = fun s => s.fetchAtPc k deliver := by
  unfold fetchSignedOfWidth
  split <;> exact ⟨_, _, rfl⟩

theorem execFetchSigned_pcInRange {s : State} (legal : s.length ≤ maxBufferLength)
    (range : s.pcInRange) (count : Word) : PcInRangeAfter (execFetchSigned count s) := by
  unfold execFetchSigned
  split
  · exact pcInRangeAfter_next range
  · obtain ⟨k, deliver, eq⟩ := fetchSignedOfWidth_eq_fetchAtPc count.toNat
    rw [eq]
    exact State.fetchAtPc_pcInRange legal range k deliver

theorem execFetchUnsigned_pcInRange {s : State} (legal : s.length ≤ maxBufferLength)
    (range : s.pcInRange) (count : Word) : PcInRangeAfter (execFetchUnsigned count s) := by
  unfold execFetchUnsigned
  split
  · exact pcInRangeAfter_next range
  · exact State.fetchAtPc_pcInRange legal range _ _

/-- A `Step` advances `PC` only from an index of the buffer, so at most to `L`. -/
theorem State.stepOnce_pcInRange {s : State} (legal : s.length ≤ maxBufferLength)
    (range : s.pcInRange) : s.stepOnce.1.pcInRange := by
  by_cases inside : 0 ≤ s.pc.toInt ∧ s.pc.toInt < s.length
  · rw [State.stepOnce_inRange inside]
    exact pcInRange_advance (k := 1) legal ⟨inside.1, by omega⟩
  · rw [State.stepOnce_outOfRange inside]
    exact range

theorem State.stepOnce_length (s : State) : s.stepOnce.1.length = s.length := by
  obtain ⟨v, eq⟩ := s.stepOnce_setPc
  rw [eq, State.setPc_length]

theorem State.stepUpTo_pcInRange (n : Nat) {s : State} (legal : s.length ≤ maxBufferLength)
    (range : s.pcInRange) : (State.stepUpTo n s).1.pcInRange := by
  induction n generalizing s with
  | zero => exact range
  | succ n ih =>
    have one := State.stepOnce_pcInRange legal range
    have length := s.stepOnce_length
    rw [State.stepUpTo]
    split
    case h_1 t eq =>
      rw [eq] at one length
      exact ih (length.trans_le legal) one
    case h_2 t e eq =>
      rw [eq] at one
      exact one

theorem StepResult.finish_pcInRange {r : StepResult} (range : r.1.pcInRange) :
    PcInRangeAfter (StepResult.finish r) := by
  obtain ⟨q, eq⟩ := StepResult.finish_next r
  rw [eq]
  exact pcInRangeAfter_next (State.pcInRange_respond range q)

/-- The commands of the table of 10_state.md R23, `Construct` aside, leave `PC` in range. -/
theorem exec_pcInRange_of_writesPc {i : Instr} {s : State} (legal : s.length ≤ maxBufferLength)
    (range : s.pcInRange) (writes : writesPc i = true) (isOther : isConstruct i = false) :
    PcInRangeAfter (exec i s) := by
  cases i
  case fetchI8 | fetchI16 | fetchI24 | fetchI32 | fetchI40 | fetchI48 | fetchI56 | fetchI64 =>
    exact State.fetchAtPc_pcInRange legal range _ _
  case fetchSigned count => exact execFetchSigned_pcInRange legal range count
  case fetchUnsigned count => exact execFetchUnsigned_pcInRange legal range count
  case step => exact StepResult.finish_pcInRange (State.stepOnce_pcInRange legal range)
  case run => exact StepResult.finish_pcInRange (State.stepUpTo_pcInRange _ legal range)
  case runFor n => exact StepResult.finish_pcInRange (State.stepUpTo_pcInRange _ legal range)
  case construct => cases isOther
  all_goals cases writes

theorem exec_pcInRange {i : Instr} {s t : State} (legal : s.length ≤ maxBufferLength)
    (range : s.pcInRange) (isOther : isConstruct i = false) (run : exec i s = .next t) :
    t.pcInRange := by
  cases writes : writesPc i with
  | true => exact exec_pcInRange_of_writesPc legal range writes isOther t run
  | false =>
    obtain ⟨-, -, len, -⟩ := exec_keepsThread isOther run
    have pc : t.pc = s.pc := exec_keepsPc writes run
    have length : t.length = s.length := congrArg BitVec.toNat len
    rw [State.pcInRange, pc, length]
    exact range

/-- Settles O12: only a thread command moves `PC`, and only over bytes it has found in bounds; a
reset puts it at 0. -/
theorem pcStaysInRange : Obligations.PcStaysInRange := by
  intro s t inv range noConstruct h
  cases State.stepsTo_of_step h with
  | idle port => exact range
  | reset rest port => exact ⟨le_rfl, le_rfl⟩
  | construct c rest port code short => exact absurd code (noConstruct c rest port)
  | other c rest i t port code isOther run =>
    exact exec_pcInRange (s := s.takeInput) inv.lengthLegal range isOther run

/-! ### The stack (R26 to R28) -/

/-- A step leaves the stack as it is, or empties it because the thread is replaced. -/
theorem step_stack_cases {s t : State} (h : step s = .next t) :
    t.stack = s.stack ∨ t.stack = [] ∧ s.replacesThread := by
  cases State.stepsTo_of_step h with
  | idle port => exact .inl rfl
  | reset rest port => exact .inr ⟨rfl, .inl ⟨rest, port⟩⟩
  | construct c rest port code short => exact .inr ⟨rfl, .inr ⟨c, rest, port, code⟩⟩
  | other c rest i t port code isOther run =>
    obtain ⟨stack, -⟩ := exec_keepsThread isOther run
    exact .inl stack

theorem State.not_replacesThread_of_idle {s : State} (port : s.port = []) :
    ¬ s.replacesThread := by
  simp [State.replacesThread, port]

/-- Of the commands, only `Construct` replaces the thread. -/
theorem State.replacesThread_iff_of_command {s : State} {c : CommandRecord} {rest : List Input}
    (port : s.port = .command c :: rest) : s.replacesThread ↔ c.cmd = 0x3F := by
  simp [State.replacesThread, port]

/-- A reset and a `Construct` empty the stack. -/
theorem step_stack_of_replacesThread {s t : State} (replaces : s.replacesThread)
    (h : step s = .next t) : t.stack = [] := by
  cases State.stepsTo_of_step h with
  | idle port => exact absurd replaces (State.not_replacesThread_of_idle port)
  | reset rest port => rfl
  | construct c rest port code short => rfl
  | other c rest i t port code isOther run =>
    exact absurd ((State.replacesThread_iff_of_command port).1 replaces) code

theorem State.stackFits_of_empty {s : State} (empty : s.stack = []) : s.stackFits := by
  intro d _
  simp [empty]

theorem step_stackFits {s t : State} (fits : s.stackFits) (h : step s = .next t) :
    t.stackFits := by
  rcases step_stack_cases h with same | ⟨empty, -⟩
  · rw [State.stackFits, same]
    exact fits
  · exact State.stackFits_of_empty empty

theorem step_stack_of_empty {s t : State} (empty : s.stack = []) (h : step s = .next t) :
    t.stack = [] := by
  rcases step_stack_cases h with same | ⟨emptied, -⟩
  · exact same.trans empty
  · exact emptied

/-- Settles O13: what the two cases of `step_stack_cases` say of the stack, its capacity and its
depth. -/
theorem stackStaysEmpty : Obligations.StackStaysEmpty := by
  refine ⟨⟨rfl, State.stackFits_of_empty rfl⟩, fun _ _ h => step_stack_cases h,
    fun _ _ replaces h => step_stack_of_replacesThread replaces h,
    fun _ _ fits h => step_stackFits fits h, fun s t empty h => ?_⟩
  have emptyAfter := step_stack_of_empty empty h
  exact ⟨emptyAfter, by simp [State.readRegister, emptyAfter]⟩

/-! ### The sink (R31) -/

/-- A command appends at most 8 bytes to the sink. -/
theorem exec_sink {i : Instr} {s t : State} (run : exec i s = .next t) :
    ∃ bs : List Byte, t.sink = s.sink ++ bs ∧ bs.length ≤ 8 := by
  have shape := exec_shape i s
  rw [run] at shape
  cases shape with
  | sink n v atMost writes =>
    refine ⟨(bytesOf v n).take (s.sinkTakes n), rfl, ?_⟩
    calc ((bytesOf v n).take (s.sinkTakes n)).length
        ≤ (bytesOf v n).length := List.length_take_le' ..
      _ = n := bytesOf_length v n
      _ ≤ 8 := atMost
  | answer | draw | thread | construct => exact ⟨[], (List.append_nil _).symm, Nat.zero_le _⟩

/-- Settles O16: outside the writers, the sink after a step is the sink before it. -/
theorem sinkOnlyGrows : Obligations.SinkOnlyGrows := by
  intro s t h
  cases State.stepsTo_of_step h with
  | idle | reset | construct => exact ⟨[], (List.append_nil _).symm, Nat.zero_le _⟩
  | other c rest i t port code isOther run => exact exec_sink (s := s.takeInput) run

/-! ### No fault (R29) -/

/-- No shape of an outcome is a fault. -/
theorem exec_ne_fault (i : Instr) (s : State) (f : Fault) : exec i s ≠ .fault f := by
  intro run
  have shape := exec_shape i s
  rw [run] at shape
  cases shape

/-- Settles O17: of the four things a step can do, only running a command could fault. -/
theorem noStepFaults : Obligations.NoStepFaults := by
  intro s f h
  rcases step_cases s with ⟨-, eq⟩ | ⟨_, -, eq⟩ | ⟨_, _, i, -, -, eq⟩ |
      ⟨_, _, _, -, -, eq⟩
  · rw [eq] at h
    cases h
  · rw [eq] at h
    cases h
  · rw [eq] at h
    exact exec_ne_fault i s.takeInput f h
  · rw [eq] at h
    cases h

/-! ### `MACHINE_REF` (R33) -/

/-- A meaning that neither reads nor changes `MACHINE_REF`: it commutes with putting another one in
its place. -/
def IgnoresMachineRef (f : State → Result) : Prop :=
  ∀ (s : State) (ref : Word),
    f (s.withMachineRef ref) = mapNext (fun t => t.withMachineRef ref) (f s)

/-- A fetch ignores it when both of its continuations do. -/
theorem State.fetch_withMachineRef {s : State} {ref cursor : Word} {n : Nat}
    {short short' : Result} {use use' : Nat → Result}
    (onShort : short' = mapNext (fun t => t.withMachineRef ref) short)
    (onUse : ∀ u, use' u = mapNext (fun t => t.withMachineRef ref) (use u)) :
    (s.withMachineRef ref).fetch cursor n short' use' =
      mapNext (fun t => t.withMachineRef ref) (s.fetch cursor n short use) := by
  by_cases bounds : s.inBounds cursor.toInt n = true
  · rw [State.fetch_inBounds short use bounds, ← onUse]
    exact State.fetch_inBounds short' use' bounds
  · rw [State.fetch_short short use bounds, ← onShort]
    exact State.fetch_short short' use' bounds

theorem State.inBounds_withMachineRef (s : State) (ref : Word) (addr : Int) (n : Nat) :
    (s.withMachineRef ref).inBounds addr n = s.inBounds addr n := rfl

theorem fetchUnsignedAt_ignoresMachineRef (pc : Word) (k : Nat) :
    IgnoresMachineRef (fun s => s.fetchUnsignedAt pc k) :=
  fun _ _ => State.fetch_withMachineRef rfl fun _ => rfl

theorem fetchAtPc_ignoresMachineRef (k : Nat) (deliver : Nat → Word) :
    IgnoresMachineRef (fun s => s.fetchAtPc k deliver) :=
  fun _ _ => State.fetch_withMachineRef rfl fun _ => rfl

theorem execFetchN_ignoresMachineRef (pc count : Word) :
    IgnoresMachineRef (execFetchN pc count) := by
  intro s ref
  unfold execFetchN
  rw [State.inBounds_withMachineRef]
  split_ifs
  · rfl
  · rfl
  · rfl
  · rfl
  · exact State.fetch_withMachineRef rfl fun _ => rfl

theorem execFetchSigned_ignoresMachineRef (count : Word) :
    IgnoresMachineRef (execFetchSigned count) := by
  intro s ref
  unfold execFetchSigned
  split
  · rfl
  · obtain ⟨k, deliver, eq⟩ := fetchSignedOfWidth_eq_fetchAtPc count.toNat
    rw [eq]
    exact fetchAtPc_ignoresMachineRef k deliver s ref

theorem execFetchUnsigned_ignoresMachineRef (count : Word) :
    IgnoresMachineRef (execFetchUnsigned count) := by
  intro s ref
  unfold execFetchUnsigned
  split
  · rfl
  · exact fetchAtPc_ignoresMachineRef _ _ s ref

theorem State.sinkWrite_withMachineRef (s : State) (ref : Word) (n : Nat) (v : Word) :
    (s.withMachineRef ref).sinkWrite n v = (s.sinkWrite n v).withMachineRef ref := by
  obtain ⟨pc, stack, buf, len, machineRef, sink, response, port, sinkAnswers, draws⟩ := s
  cases sinkAnswers with
  | nil => rfl
  | cons a rest => rfl

theorem sinkWrite_ignoresMachineRef (n : Nat) (v : Word) :
    IgnoresMachineRef (fun s => .next (s.sinkWrite n v)) :=
  fun s ref => congrArg Host.Outcome.next (s.sinkWrite_withMachineRef ref n v)

theorem FloatFormat.convert_withMachineRef (src dst : FloatFormat) (bits : Nat) (s : State)
    (ref : Word) :
    src.convert dst bits (s.withMachineRef ref) =
      ((src.convert dst bits s).1.withMachineRef ref, (src.convert dst bits s).2) := by
  unfold FloatFormat.convert
  split
  · rfl
  split
  · rfl
  · rfl

theorem convert_ignoresMachineRef (src dst : FloatFormat) (bits : Nat) (k : Kind) :
    IgnoresMachineRef fun s =>
      (src.convert dst bits s).1.returnValue k (src.convert dst bits s).2 := by
  intro s ref
  simp only [FloatFormat.convert_withMachineRef]
  rfl

theorem execUpcast_ignoresMachineRef (source : KindTag) (p : Word) :
    IgnoresMachineRef (execUpcast source p) := by
  intro s ref
  unfold execUpcast
  split
  case h_9 => exact convert_ignoresMachineRef _ _ _ _ s ref
  all_goals rfl

theorem downcastStackValue_ignoresMachineRef (c : CanonicalKind) (p : Word) (target : KindTag) :
    IgnoresMachineRef (downcastStackValue c p target) := by
  intro s ref
  unfold downcastStackValue
  split
  · rfl
  split
  · rfl
  split
  · rfl
  · cases c <;> rfl
  · cases c <;> rfl
  · cases c with
    | uint64 | int64 => rfl
    | float64 => exact convert_ignoresMachineRef _ _ _ _ s ref

theorem execDowncast_ignoresMachineRef (source : KindTag) (p : Word) (target : KindTag) :
    IgnoresMachineRef (execDowncast source p target) := by
  intro s ref
  unfold execDowncast
  split
  case h_4 => rfl
  all_goals exact downcastStackValue_ignoresMachineRef _ _ _ s ref

theorem execKindInfo_ignoresMachineRef (tag : KindTag) : IgnoresMachineRef (execKindInfo tag) := by
  intro s ref
  unfold execKindInfo
  split
  · rfl
  split
  · rfl
  · rfl

theorem execUnsignedFromBytes_ignoresMachineRef (k : Word) (lanes : Lanes) :
    IgnoresMachineRef (execUnsignedFromBytes k lanes) := by
  intro s ref
  unfold execUnsignedFromBytes
  split
  · rfl
  · rfl

/-- A `Step`'s answer with another `MACHINE_REF` in its state and the same error. -/
def StepResult.withMachineRef (r : StepResult) (ref : Word) : StepResult :=
  (r.1.withMachineRef ref, r.2)

theorem StepResult.finish_withMachineRef (r : StepResult) (ref : Word) :
    StepResult.finish (r.withMachineRef ref) =
      mapNext (fun t => t.withMachineRef ref) (StepResult.finish r) := by
  obtain ⟨t, _ | e⟩ := r
  · rfl
  · rfl

theorem State.stepOnce_withMachineRef (s : State) (ref : Word) :
    (s.withMachineRef ref).stepOnce = StepResult.withMachineRef s.stepOnce ref := by
  by_cases inside : 0 ≤ s.pc.toInt ∧ s.pc.toInt < s.length
  · rw [State.stepOnce_inRange inside]
    exact State.stepOnce_inRange (s := s.withMachineRef ref) inside
  · rw [State.stepOnce_outOfRange inside]
    exact State.stepOnce_outOfRange (s := s.withMachineRef ref) inside

theorem State.stepUpTo_withMachineRef (n : Nat) (s : State) (ref : Word) :
    State.stepUpTo n (s.withMachineRef ref) = (State.stepUpTo n s).withMachineRef ref := by
  induction n generalizing s with
  | zero => rfl
  | succ n ih =>
    rw [State.stepUpTo, State.stepUpTo, State.stepOnce_withMachineRef]
    obtain ⟨t, _ | e⟩ := s.stepOnce
    · exact ih t
    · rfl

theorem execStep_ignoresMachineRef : IgnoresMachineRef execStep := by
  intro s ref
  rw [execStep, State.stepOnce_withMachineRef, StepResult.finish_withMachineRef, execStep]

theorem stepUpTo_ignoresMachineRef (n : Nat) (s : State) (ref : Word) :
    StepResult.finish (State.stepUpTo n (s.withMachineRef ref)) =
      mapNext (fun t => t.withMachineRef ref) (StepResult.finish (State.stepUpTo n s)) := by
  rw [State.stepUpTo_withMachineRef, StepResult.finish_withMachineRef]

/-- Every command but `Construct`, by the shared operation it is made of. -/
theorem exec_ignoresMachineRef {i : Instr} (isOther : isConstruct i = false) :
    IgnoresMachineRef (exec i) := by
  cases i
  case fetchU8 pc | fetchU16 pc | fetchU24 pc | fetchU32 pc | fetchU40 pc | fetchU48 pc
      | fetchU56 pc | fetchU64 pc =>
    exact fetchUnsignedAt_ignoresMachineRef pc _
  case fetchN pc count => exact execFetchN_ignoresMachineRef pc count
  case fetchI8 | fetchI16 | fetchI24 | fetchI32 | fetchI40 | fetchI48 | fetchI56 | fetchI64 =>
    exact fetchAtPc_ignoresMachineRef _ _
  case fetchSigned count => exact execFetchSigned_ignoresMachineRef count
  case fetchUnsigned count => exact execFetchUnsigned_ignoresMachineRef count
  case writeU8 v | writeU16 v | writeU24 v | writeU32 v | writeU40 v | writeU48 v | writeU56 v
      | writeU64 v | writeVarInt v =>
    exact sinkWrite_ignoresMachineRef _ v
  case unsignedFromBytes k lanes => exact execUnsignedFromBytes_ignoresMachineRef k lanes
  case upcast source p => exact execUpcast_ignoresMachineRef source p
  case downcast source p target => exact execDowncast_ignoresMachineRef source p target
  case kindInfo tag => exact execKindInfo_ignoresMachineRef tag
  case step => exact execStep_ignoresMachineRef
  case run => exact fun s ref => stepUpTo_ignoresMachineRef s.runBound s ref
  case runFor n => exact stepUpTo_ignoresMachineRef n.toInt.toNat
  case construct => cases isOther
  all_goals exact fun _ _ => rfl

/-- Settles O19. -/
theorem machineRefIsOpaque : Obligations.MachineRefIsOpaque :=
  fun _ s ref isOther => exec_ignoresMachineRef isOther s ref

/-! ### The table of values after reset and after `Construct` (R34) -/

/-- After reset there is no index below `L`, so a `Step` runs nothing. -/
theorem exec_step_reset :
    exec .step State.reset = .next (State.reset.raise .bytecodeOverflow) := by
  have empty : ¬ (0 ≤ State.reset.pc.toInt ∧ State.reset.pc.toInt < State.reset.length) := by decide
  calc exec .step State.reset = StepResult.finish State.reset.stepOnce := rfl
    _ = .next (State.reset.raise .bytecodeOverflow) := by
      rw [State.stepOnce_outOfRange empty, StepResult.finish_error]

/-- Settles O8. -/
theorem resetAndConstructValues : Obligations.ResetAndConstructValues := by
  refine ⟨⟨rfl, rfl, rfl, rfl⟩, exec_step_reset, State.hardReset_sink, ?_⟩
  intro s buffer pc0 ref short
  exact ⟨s.constructed buffer pc0 ref, exec_construct_of_short pc0 ref s short,
    s.constructed_pc buffer pc0 ref, s.constructed_stack buffer pc0 ref,
    State.constructed_length short, fun i _ => Memory.byteAt_ofBytes buffer i,
    s.constructed_machineRef buffer pc0 ref, s.constructed_sink buffer pc0 ref⟩

end Sys2Proof.Machine

/-! ### The memory: views of the buffer (20_memory.md) -/

namespace Sys2Proof.Machine

/-! ### The mixed-width view (R51) -/

theorem Memory.slice_add (m : Memory) (i j k : Nat) :
    m.slice i (j + k) = m.slice i j ++ m.slice (i + j) k := by
  induction j generalizing i with
  | zero => simp [Memory.slice]
  | succ j ih =>
    rw [Nat.add_right_comm, Memory.slice, Memory.slice, ih, Nat.add_right_comm i 1 j,
      List.cons_append, Nat.add_assoc]

/-- The number of `j + k` bytes has the first `j` above the last `k`. -/
theorem Memory.number_add (m : Memory) (i j k : Nat) :
    m.number i (j + k) = m.number i j * 2 ^ (8 * k) + m.number (i + j) k := by
  calc m.number i (j + k)
      = assembleBytes (m.slice i j ++ m.slice (i + j) k) := by
        rw [← Memory.assemble_slice, Memory.slice_add]
    _ = m.number i j * 2 ^ (8 * k) + m.number (i + j) k := by
        rw [assembleBytes_append, Memory.slice_length, Memory.assemble_slice,
          Memory.assemble_slice]

/-- Bounds of a wide access are bounds of its two parts. -/
theorem State.inBounds_split {s : State} {addr : Int} {j k : Nat}
    (bounds : s.inBounds addr (j + k) = true) :
    s.inBounds addr j = true ∧ s.inBounds (addr + j) k = true := by
  simp only [State.inBounds_iff] at bounds ⊢
  omega

/-- Settles O27: in bounds each read is the number of its bytes, and that number splits. -/
theorem wideReadSplits : Obligations.WideReadSplits := by
  intro s pc n j _ shorter _ bounds
  obtain ⟨k, rfl⟩ := Nat.exists_eq_add_of_le shorter.le
  obtain ⟨earlier, later⟩ := State.inBounds_split bounds
  have nonneg : 0 ≤ pc := ((s.inBounds_iff _ _).1 bounds).1
  have start : (pc + j).toNat = pc.toNat + j := Int.toNat_add_nat nonneg j
  rw [Nat.add_sub_cancel_left]
  refine ⟨s.buf.number pc.toNat j, s.buf.number (pc.toNat + j) k,
    State.memRead_inBounds earlier, ?_, ?_⟩
  · rw [State.memRead_inBounds later, start]
  · rw [State.memRead_inBounds bounds, Memory.number_add]

/-! ### The buffer is not stored to (R61) -/

/-- Settles O15: the buffer and its length are among what a command other than `Construct` keeps, and
a read is of these two only. -/
theorem bufferIsImmutable : Obligations.BufferIsImmutable := by
  intro i s t isOther run
  obtain ⟨-, buf, len, -⟩ := exec_keepsThread isOther run
  exact ⟨buf, len, State.readByte_congr buf len⟩

end Sys2Proof.Machine

/-! ### The encoding: opcode bytes, command records, widths (30_encoding.md) -/

namespace Sys2Proof.Machine

/-! ### Opcode bytes (R87) -/

/-- A one above `n` free bits is the leading one. -/
theorem getLsbD_one_append {m n i : Nat} (low : BitVec n) (above : n ≤ i) :
    (1#(m + 1) ++ low).getLsbD i = decide (i = n) := by
  rw [BitVec.getLsbD_append, if_neg above.not_gt, BitVec.getLsbD_one]
  grind

/-- A word whose leading one is bit `n` is that one above its low `n` bits. -/
theorem one_append_low {m n : Nat} {b : BitVec (m + 1 + n)}
    (leading : ∀ i, n ≤ i → i < m + 1 + n → b.getLsbD i = decide (i = n)) :
    1#(m + 1) ++ b.extractLsb' 0 n = b := by
  refine BitVec.eq_of_getLsbD_eq fun i bound => ?_
  rcases lt_or_ge i n with low | above
  · simp [BitVec.getLsbD_append, low]
  · rw [getLsbD_one_append _ above, leading i above bound]

/-- The byte of a row decodes to the row: its leading one picks the branch, and the free bits are the
bits below. -/
theorem decodeOpcode_of_encode {o : Opcode} {b : Byte} (word : encode o.toInstr = .opcode b) :
    decodeOpcode b = o := by
  cases o with
  | noOp => cases word; rfl
  | undefined0101 => cases word; rfl
  | undefined80FF low | undefined407F low | undefined203F low | undefined101F low
  | undefined080F low | undefined0407 low | undefined0203 low =>
    cases word
    simp +decide only [decodeOpcode, getLsbD_one_append low, if_true, if_false,
      BitVec.extractLsb'_append_eq_right (b := low)]

/-- No bit is lost: the seven rows with free bits keep the bits below the leading one, and of the
last two bytes every bit was tested. -/
theorem encode_decodeOpcode (b : Byte) : encode (decodeOpcode b).toInstr = .opcode b := by
  unfold decodeOpcode
  iterate 7
    split
    · refine congrArg Encoding.opcode (one_append_low fun i above bound => ?_)
      interval_cases i <;> grind
  split <;>
  · refine congrArg Encoding.opcode (BitVec.eq_of_getLsbD_eq fun i bound => ?_)
    interval_cases i <;> simp_all

/-- Settles O5. -/
theorem opcodeBytesDecodeExactly : Obligations.OpcodeBytesDecodeExactly :=
  fun b => ⟨encode_decodeOpcode b, decodeOpcode_eq_noOp b⟩

/-! ### Kind tags (R89) -/

/-- The bits of a tag say the tag again; a number that is no kind's is past the eighteen kinds. -/
theorem decodeKindTag_bits {tag : KindTag} (legal : tag.wf = true) :
    decodeKindTag tag.bits = tag := by
  cases tag with
  | kind k => cases k <;> rfl
  | unassigned n =>
    have pastKinds : 18 ≤ n.toNat := of_decide_eq_true legal
    change decodeKindTag n = .unassigned n
    unfold decodeKindTag
    split
    case h_19 => rfl
    all_goals omega

/-! ### Instructions in either encoding (R80) -/

/-- Every opcode row is encoded by one byte, and that byte decodes to the row. -/
theorem decode_encode_opcode (o : Opcode) : decode (encode o.toInstr) = .ok o.toInstr := by
  obtain ⟨b, word⟩ : ∃ b, encode o.toInstr = .opcode b := by cases o <;> exact ⟨_, rfl⟩
  rw [word, decode, decodeOpcode_of_encode word]

/-- Settles O6: an opcode row by its leading one, a command with tag operands by the tags, any other
command by its select code alone. -/
theorem encodedInstructionDecodesBack : Obligations.EncodedInstructionDecodesBack := by
  intro i legal
  cases i
  case noOp => exact decode_encode_opcode .noOp
  case undefined80FF low => exact decode_encode_opcode (.undefined80FF low)
  case undefined407F low => exact decode_encode_opcode (.undefined407F low)
  case undefined203F low => exact decode_encode_opcode (.undefined203F low)
  case undefined101F low => exact decode_encode_opcode (.undefined101F low)
  case undefined080F low => exact decode_encode_opcode (.undefined080F low)
  case undefined0407 low => exact decode_encode_opcode (.undefined0407 low)
  case undefined0203 low => exact decode_encode_opcode (.undefined0203 low)
  case undefined0101 => exact decode_encode_opcode .undefined0101
  case upcast source payload =>
    change Except.ok (Instr.upcast (decodeKindTag source.bits) payload) = _
    rw [decodeKindTag_bits legal]
  case downcast source payload target =>
    obtain ⟨sourceLegal, targetLegal⟩ := Bool.and_eq_true_iff.1 legal
    change Except.ok (Instr.downcast (decodeKindTag source.bits) payload
      (decodeKindTag target.bits)) = _
    rw [decodeKindTag_bits sourceLegal, decodeKindTag_bits targetLegal]
  case kindInfo tag =>
    change Except.ok (Instr.kindInfo (decodeKindTag tag.bits)) = _
    rw [decodeKindTag_bits legal]
  all_goals rfl

/-- A word the encoder writes decodes to the instruction it was written for. -/
theorem decode_of_encode {e : Encoding} {i : Instr} (legal : i.wf = true) (word : encode i = e) :
    decode e = .ok i :=
  word ▸ encodedInstructionDecodesBack i legal

/-- Settles O4: each word is the one the encoder writes for its instruction. -/
theorem sampleWordsDecode : Obligations.SampleWordsDecode :=
  ⟨decode_of_encode (i := .noOp) rfl rfl,
    decode_of_encode (i := .undefined203F 0x0A) rfl rfl,
    decode_of_encode (i := .undefined80FF 0x7F) rfl rfl,
    decode_of_encode (i := .fetchU24 5) rfl rfl,
    decode_of_encode (i := .fetchN 7 2) rfl rfl,
    decode_of_encode (i := .fetchSigned 3) rfl rfl,
    decode_of_encode (i := .writeVarInt 0x100) rfl rfl,
    decode_of_encode (i := .downcast (.kind .uint64) 257 (.kind .uint8)) rfl rfl,
    decode_of_encode (i := .runFor 4) rfl rfl⟩

/-! ### Select codes (R95) -/

/-- What the decode of a command record can be: an instruction for a listed select code, the error
that names the code for any other. -/
theorem decodeCommand_cases (c : CommandRecord) :
    (c.cmd.toNat ∈ commandCodes ∧ ∃ i, decodeCommand c = .ok i) ∨
    (c.cmd.toNat ∉ commandCodes ∧ decodeCommand c = .error (.notACommand c.cmd)) := by
  unfold decodeCommand
  split
  case h_39 =>
    refine .inr ⟨?_, rfl⟩
    simp_all only [commandCodes, List.mem_cons, List.not_mem_nil, imp_false, or_self,
      not_false_eq_true]
  all_goals
    rename_i code
    exact .inl ⟨by rw [code]; decide, _, rfl⟩

/-- Settles O3: the step refuses exactly what the decoder rejects. -/
theorem exactlyTheListedCodesAreCommands : Obligations.ExactlyTheListedCodesAreCommands := by
  intro s c rest port
  rcases decodeCommand_cases c with ⟨listed, decodes⟩ | ⟨unlisted, rejected⟩
  · exact ⟨fun unlisted => absurd listed unlisted, fun _ => decodes⟩
  · exact ⟨fun _ => by simp only [step, port, rejected], fun listed => absurd listed unlisted⟩

/-! ### The least width (R85) -/

/-- The selected width holds the value, and no width below it does. -/
theorem varIntWidth_bounds (value : Word) :
    value.toNat < 2 ^ (8 * varIntWidth value) ∧
    (varIntWidth value = 1 ∨ 2 ^ (8 * (varIntWidth value - 1)) ≤ value.toNat) := by
  have fits := value.isLt
  unfold varIntWidth
  split_ifs <;> omega

/-- The width selector is least: a width is at least it exactly when the value fits. -/
theorem varIntWidth_le_iff (value : Word) {j : Nat} (positive : 1 ≤ j) :
    varIntWidth value ≤ j ↔ value.toNat ≤ 2 ^ (8 * j) - 1 := by
  obtain ⟨fits, least⟩ := varIntWidth_bounds value
  constructor
  · intro wider
    have : 2 ^ (8 * varIntWidth value) ≤ 2 ^ (8 * j) :=
      Nat.pow_le_pow_right two_pos (Nat.mul_le_mul_left 8 wider)
    omega
  · intro fitsToo
    by_contra narrower
    have : 2 ^ (8 * j) ≤ 2 ^ (8 * (varIntWidth value - 1)) :=
      Nat.pow_le_pow_right two_pos (by omega)
    have := Nat.two_pow_pos (8 * j)
    omega

/-- The bit length is the least number of bits that hold the value (00_scope.md R12). -/
theorem bitLength_le_iff (v n : Nat) : bitLength v ≤ n ↔ v < 2 ^ n := by
  unfold bitLength
  split_ifs with zero
  · simp [zero]
  · rw [Nat.add_one_le_iff, Nat.log2_lt zero]

/-- The byte count from the bit length is least too. -/
theorem byteSizeOf_le_iff (value : Word) {j : Nat} (positive : 1 ≤ j) :
    byteSizeOf value ≤ j ↔ value.toNat ≤ 2 ^ (8 * j) - 1 := by
  have room := Nat.two_pow_pos (8 * j)
  have inBits := bitLength_le_iff value.toNat (8 * j)
  unfold byteSizeOf
  split_ifs with zero
  · simp [zero, positive]
  · omega

theorem varIntWidth_pos (value : Word) : 1 ≤ varIntWidth value := by
  unfold varIntWidth
  split_ifs <;> omega

theorem byteSizeOf_pos (value : Word) : 1 ≤ byteSizeOf value := by
  have bitsIfPositive := bitLength_le_iff value.toNat 0
  unfold byteSizeOf
  split_ifs with zero
  · rfl
  · have positive : value.toNat ≠ 0 := fun h => zero (BitVec.eq_of_toNat_eq h)
    omega

/-- `UnsignedByteSize` and `WriteVarInt` agree on the width, since both take the least. -/
theorem byteSizeOf_eq_varIntWidth (value : Word) : byteSizeOf value = varIntWidth value :=
  le_antisymm
    ((byteSizeOf_le_iff value (varIntWidth_pos value)).2
      ((varIntWidth_le_iff value (varIntWidth_pos value)).1 le_rfl))
    ((varIntWidth_le_iff value (byteSizeOf_pos value)).2
      ((byteSizeOf_le_iff value (byteSizeOf_pos value)).1 le_rfl))

/-- The writer of `k` bytes is one transaction of `k` bytes (40_unsigned_codec.md R130). -/
theorem exec_writer {value : Word} {k : Nat} {i : Instr} (writer : (k, i) ∈ writeUForms value)
    (s : State) : exec i s = .next (s.sinkWrite k value) := by
  simp only [writeUForms, List.mem_cons, Prod.mk.injEq, List.not_mem_nil, or_false] at writer
  rcases writer with ⟨rfl, rfl⟩ | ⟨rfl, rfl⟩ | ⟨rfl, rfl⟩ | ⟨rfl, rfl⟩ | ⟨rfl, rfl⟩ | ⟨rfl, rfl⟩ |
    ⟨rfl, rfl⟩ | ⟨rfl, rfl⟩ <;> rfl

/-- Every width of 1 to 8 bytes has its writer. -/
theorem exists_writer (value : Word) {k : Nat} (positive : 1 ≤ k) (atMost : k ≤ 8) :
    ∃ i, (k, i) ∈ writeUForms value := by
  interval_cases k <;> simp [writeUForms]

/-- `WriteVarInt` runs as the fixed-width writer of the selected width. -/
theorem exists_writer_of_writeVarInt (value : Word) :
    ∃ i, (varIntWidth value, i) ∈ writeUForms value ∧
      ∀ s, exec (.writeVarInt value) s = exec i s := by
  obtain ⟨i, writer⟩ := exists_writer value (varIntWidth_pos value) (varIntWidth_le value)
  exact ⟨i, writer, fun s => (exec_writer writer s).symm⟩

/-- `UnsignedByteSize` answers the width `WriteVarInt` selects. -/
theorem exec_unsignedByteSize (value : Word) (s : State) :
    exec (.unsignedByteSize value) s =
      .next (s.respond { okResponse with res := BitVec.ofNat 64 (varIntWidth value) }) := by
  rw [← byteSizeOf_eq_varIntWidth]
  rfl

/-- Settles O36: the width both commands take is the one `WriteVarInt` selects. -/
theorem byteSizeIsTheLeastWidth : Obligations.ByteSizeIsTheLeastWidth := by
  intro s value
  obtain ⟨i, writer, sameRun⟩ := exists_writer_of_writeVarInt value
  have positive := varIntWidth_pos value
  exact ⟨varIntWidth value, i, positive, varIntWidth_le value,
    (varIntWidth_le_iff value positive).1 le_rfl,
    fun _ atLeastOne fits => (varIntWidth_le_iff value atLeastOne).2 fits,
    exec_unsignedByteSize value s, writer, sameRun s⟩

end Sys2Proof.Machine

/-! ### The unsigned codec: fetches, writers, minimal width (40_unsigned_codec.md) -/

namespace Sys2Proof.Machine

/-! ### Cursors (10_state.md R21, R24) -/

/-- A cursor that is not negative is its bit pattern as a number. -/
theorem toInt_eq_toNat_of_nonneg {pc : Word} (low : 0 ≤ pc.toInt) : pc.toInt = pc.toNat :=
  BitVec.toInt_eq_toNat_of_lt (BitVec.toInt_pos_iff.1 low)

/-- An index or a count that a legal buffer can have keeps its value as a word. -/
theorem toNat_ofNat_of_legal {n : Nat} (legal : n ≤ maxBufferLength) :
    (BitVec.ofNat 64 n).toNat = n := by
  unfold maxBufferLength at legal
  exact (BitVec.toNat_ofNat ..).trans (Nat.mod_eq_of_lt (by omega))

/-- It keeps its value as a signed word too. -/
theorem toInt_ofNat_of_legal {n : Nat} (legal : n ≤ maxBufferLength) :
    (BitVec.ofNat 64 n).toInt = n := by
  have value := toNat_ofNat_of_legal legal
  unfold maxBufferLength at legal
  rw [BitVec.toInt_eq_toNat_of_lt (by omega), value]

/-- The cursor past `k` bytes is the sum on integers. -/
theorem add_ofNat_eq_ofInt (pc : Word) (k : Nat) :
    pc + BitVec.ofNat 64 k = BitVec.ofInt 64 (pc.toInt + k) := by
  rw [BitVec.ofInt_add, BitVec.ofInt_toInt, BitVec.ofInt_natCast]

/-! ### Fetches at a cursor (R110 to R121) -/

/-- Each of the eight `FetchU` commands is the common fetch of its byte count (R110). -/
theorem exec_fetchU {pc : Word} {k : Nat} {i : Instr} (fetch : (k, i) ∈ fetchUForms pc)
    (s : State) : exec i s = s.fetchUnsignedAt pc k := by
  simp only [fetchUForms, List.mem_cons, Prod.mk.injEq, List.not_mem_nil, or_false] at fetch
  rcases fetch with ⟨rfl, rfl⟩ | ⟨rfl, rfl⟩ | ⟨rfl, rfl⟩ | ⟨rfl, rfl⟩ | ⟨rfl, rfl⟩ | ⟨rfl, rfl⟩ |
    ⟨rfl, rfl⟩ | ⟨rfl, rfl⟩ <;> rfl

theorem fetchUForms_width_le {pc : Word} {k : Nat} {i : Instr} (fetch : (k, i) ∈ fetchUForms pc) :
    k ≤ 8 := by
  simp only [fetchUForms, List.mem_cons, Prod.mk.injEq, List.not_mem_nil, or_false] at fetch
  omega

/-- Every width of 1 to 8 bytes has its fetch. -/
theorem exists_fetchU (pc : Word) {k : Nat} (positive : 1 ≤ k) (atMost : k ≤ 8) :
    ∃ j, (k, j) ∈ fetchUForms pc := by
  interval_cases k <;> simp [fetchUForms]

theorem State.fetchUnsignedAt_inBounds {s : State} {pc : Word} {k : Nat}
    (bounds : 0 ≤ pc.toInt ∧ pc.toInt + k ≤ s.length) :
    s.fetchUnsignedAt pc k = .next (s.respond { okResponse with
      res := BitVec.ofNat 64 (s.buf.number pc.toNat k)
      res2 := BitVec.ofInt 64 (pc.toInt + k) }) := by
  have index : pc.toInt.toNat = pc.toNat := by
    rw [toInt_eq_toNat_of_nonneg bounds.1, Int.toNat_natCast]
  rw [State.fetchUnsignedAt_eq, if_pos ((s.inBounds_iff _ _).2 bounds), index, add_ofNat_eq_ofInt]

theorem State.fetchUnsignedAt_outOfBounds {s : State} {pc : Word} {k : Nat}
    (outside : ¬ (0 ≤ pc.toInt ∧ pc.toInt + k ≤ s.length)) :
    s.fetchUnsignedAt pc k = .next (s.raiseAt pc (.notEnoughBytes (BitVec.ofNat 64 k))) := by
  rw [State.fetchUnsignedAt_eq, if_neg (mt (s.inBounds_iff _ _).1 outside)]

/-- Settles O23. -/
theorem fetchUReadsBigEndian : Obligations.FetchUReadsBigEndian := by
  intro s pc k i fetch low high
  exact ⟨Memory.number_lt _ _ _,
    (exec_fetchU fetch s).trans (State.fetchUnsignedAt_inBounds ⟨low, high⟩)⟩

/-- Settles O24. -/
theorem fetchUOutOfBoundsFails : Obligations.FetchUOutOfBoundsFails := by
  intro s pc k i fetch outside
  exact (exec_fetchU fetch s).trans (State.fetchUnsignedAt_outOfBounds outside)

/-- With a count in its range `FetchN` is the common fetch of that many bytes; of no bytes too,
because `ZERO_FETCH_OOB` is `fail` (log 8). -/
theorem execFetchN_eq_fetchUnsignedAt {count : Word} (low : 0 ≤ count.toInt)
    (high : count.toInt ≤ 8) (pc : Word) (s : State) :
    execFetchN pc count s = s.fetchUnsignedAt pc count.toNat := by
  unfold execFetchN
  rw [if_neg low.not_gt, if_neg high.not_gt]
  by_cases zero : count.toInt = 0
  · obtain rfl : count = 0 := BitVec.eq_of_toInt_eq zero
    have oob : (s.inBounds pc.toInt 0 = true ∨ Config.zeroFetchOob = .succeed) ↔
        s.inBounds pc.toInt 0 = true := or_iff_left (by decide)
    simp [State.fetchUnsignedAt_eq, oob, Memory.number]
  · rw [if_neg zero, State.fetchUnsignedAt, BitVec.ofNat_toNat, BitVec.setWidth_eq]

/-- Settles O26: every width is a count in the range of `FetchN`. -/
theorem fetchNAgreesWithFetchU : Obligations.FetchNAgreesWithFetchU := by
  intro s pc k i fetch
  have atMost := fetchUForms_width_le fetch
  have legal : k ≤ maxBufferLength := atMost.trans (by decide)
  have signed := toInt_ofNat_of_legal legal
  calc execFetchN pc (BitVec.ofNat 64 k) s
      = s.fetchUnsignedAt pc (BitVec.ofNat 64 k).toNat :=
        execFetchN_eq_fetchUnsignedAt (by omega) (by omega) pc s
    _ = s.fetchUnsignedAt pc k := by rw [toNat_ofNat_of_legal legal]
    _ = exec i s := (exec_fetchU fetch s).symm

/-- Settles O25: the count errors come first, and what they leave is the common fetch. -/
theorem fetchNTestsInOrder : Obligations.FetchNTestsInOrder := by
  intro s pc count
  show execFetchN pc count s = _
  by_cases negative : count.toInt < 0
  · rw [if_pos negative]
    exact if_pos negative
  by_cases large : 8 < count.toInt
  · rw [if_neg negative, if_pos large]
    exact (if_neg negative).trans (if_pos large)
  rw [if_neg negative, if_neg large, execFetchN_eq_fetchUnsignedAt (by omega) (by omega),
    toInt_eq_toNat_of_nonneg (not_lt.1 negative)]
  split_ifs with bounds
  · exact State.fetchUnsignedAt_inBounds bounds
  · rw [State.fetchUnsignedAt_outOfBounds bounds, BitVec.ofNat_toNat, BitVec.setWidth_eq]

/-! ### Writers (R130 to R138) -/

/-- The bytes the spec says a writer offers are those the model's disassembly gives. -/
theorem offeredBytes_eq_bytesOf (k : Nat) (value : Word) :
    offeredBytes k value = bytesOf value k := by
  induction k with
  | zero => rfl
  | succ k ih =>
    rw [bytesOf_succ, ← ih, offeredBytes, offeredBytes, List.range_succ_eq_map, List.map_cons,
      List.map_map]
    congr 1
    refine List.map_congr_left fun j _ => ?_
    rw [Function.comp_apply, show k + 1 - 1 - (j + 1) = k - 1 - j by omega]

/-- A command that reaches the sink is one transaction. -/
theorem exec_of_writesSink {i : Instr} (writes : writesSink i = true) (s : State) :
    ∃ k value, exec i s = .next (s.sinkWrite k value) := by
  unfold writesSink at writes
  split at writes
  case h_10 => cases writes
  all_goals exact ⟨_, _, rfl⟩

/-- A transaction changes the sink and the response and uses up one answer (20_memory.md R60). -/
theorem State.sinkWrite_frame (s : State) (k : Nat) (value : Word) :
    s.sinkWrite k value = { s with
      sink := (s.sinkWrite k value).sink, response := (s.sinkWrite k value).response
      sinkAnswers := s.sinkAnswers.tail
      draws := if s.sinkAnswers.isEmpty then s.draws + 1 else s.draws } := by
  apply State.eq_of_fields <;> simp

/-- Settles O22: a read is of the buffer and its length only, which a transaction keeps. -/
theorem writersChangeOnlyTheSinkAndResponse : Obligations.WritersChangeOnlyTheSinkAndResponse := by
  intro i s t writes run
  obtain ⟨k, value, transaction⟩ := exec_of_writesSink writes s
  rw [transaction] at run
  cases run
  exact ⟨State.readByte_congr (s.sinkWrite_buf k value) (s.sinkWrite_len k value),
    s.sinkWrite_frame k value⟩

/-- Settles O34: a writer's response is the sink's answer, with or without its error. -/
theorem writersOfferTheirBytes : Obligations.WritersOfferTheirBytes := by
  intro s value k i writer
  refine ⟨s.sinkWrite k value, s.sinkTakes k, exec_writer writer s, rfl, ?_, ?_, ?_⟩
  · rw [offeredBytes_eq_bytesOf, State.sinkWrite_sink]
  · intro noError
    rw [State.sinkWrite_response, noError, writeResponse]
  · intro e error
    rw [State.sinkWrite_response, error, writeResponse]

/-- Settles O35: the selected width is least by `varIntWidth_le_iff`. -/
theorem writeVarIntPicksTheLeastWidth : Obligations.WriteVarIntPicksTheLeastWidth := by
  intro s value
  obtain ⟨i, writer, sameRun⟩ := exists_writer_of_writeVarInt value
  refine ⟨varIntWidth value, i, s.sinkWrite (varIntWidth value) value, writer,
    (varIntWidth_le_iff value (varIntWidth_pos value)).1 le_rfl,
    fun _ atLeastOne fits => (varIntWidth_le_iff value atLeastOne).2 fits, sameRun s, rfl, ?_⟩
  rw [offeredBytes_eq_bytesOf, State.sinkWrite_sink, State.sinkTakes]

/-! ### Minimal width (R141 to R143) -/

theorem bitLength_eq_size (v : Nat) : bitLength v = v.size :=
  eq_of_forall_ge_iff fun n => (bitLength_le_iff v n).trans Nat.size_le.symm

/-- The rounded-up quotient of a number of bits by 8. -/
theorem ceil_div_eight (n : Nat) : ⌈(n : ℚ) / 8⌉ = ((n + 7) / 8 : Nat) := by
  rw [show (n : ℚ) / 8 = ((n : ℤ) : ℚ) / ((8 : ℕ) : ℚ) by norm_num, Rat.ceil_intCast_div_natCast]
  omega

/-- Settles O37: the width counted from the thresholds is the one counted from the bit length. -/
theorem byteSizeIsBitLengthInBytes : Obligations.ByteSizeIsBitLengthInBytes := by
  intro s value
  obtain ⟨i, writer, sameRun⟩ := exists_writer_of_writeVarInt value
  refine ⟨varIntWidth value, varIntWidth_pos value, varIntWidth_le value,
    exec_unsignedByteSize value s, ?_, i, writer, sameRun s⟩
  rw [← byteSizeOf_eq_varIntWidth, byteSizeOf, ceil_div_eight, bitLength_eq_size]
  split <;> rfl

/-- Up to 8 bytes fit on the lanes, the unused lanes zero (30_encoding.md R97). -/
theorem lanesToList_lanesOfList {bs : List Byte} (fits : bs.length ≤ 8) :
    lanesToList (lanesOfList bs) = bs ++ List.replicate (8 - bs.length) 0 := by
  refine List.ext_getElem (by simp [lanesToList]; omega) fun j inLanes _ => ?_
  have lane : (lanesToList (lanesOfList bs))[j] = bs.getD j 0 := by
    have : j < 8 := inLanes
    interval_cases j <;> rfl
  rw [lane, List.getElem_append]
  split_ifs with used
  · exact List.getD_eq_getElem bs 0 used
  · rw [List.getElem_replicate]
    exact List.getD_eq_default bs 0 (not_lt.1 used)

/-- `UnsignedToBytes` answers the bytes of the width `WriteVarInt` selects, and their number. -/
theorem exec_unsignedToBytes (value : Word) (s : State) :
    exec (.unsignedToBytes value) s = .next (s.respond { okResponse with
      res2 := BitVec.ofNat 64 (varIntWidth value)
      lanes := lanesOfList (bytesOf value (varIntWidth value)) }) := by
  rw [← byteSizeOf_eq_varIntWidth]
  rfl

/-- The lanes `UnsignedToBytes` fills. -/
theorem lanesToList_varInt (value : Word) :
    lanesToList (lanesOfList (bytesOf value (varIntWidth value))) =
      bytesOf value (varIntWidth value) ++ List.replicate (8 - varIntWidth value) 0 := by
  rw [lanesToList_lanesOfList (by rw [bytesOf_length]; exact varIntWidth_le value), bytesOf_length]

/-- The least width of a positive value wastes no byte: its first one is not zero. -/
theorem bytesOf_varIntWidth_head_ne_zero {value : Word} (positive : value ≠ 0) :
    (bytesOf value (varIntWidth value)).getD 0 0 ≠ 0 := by
  obtain ⟨fits, least⟩ := varIntWidth_bounds value
  obtain ⟨k, width⟩ := Nat.exists_eq_add_of_le' (varIntWidth_pos value)
  rw [width] at fits least ⊢
  intro zero
  have quotient : value.toNat / 2 ^ (8 * k) = 0 := by
    have small : value.toNat / 2 ^ (8 * k) < 2 ^ 8 := by
      rwa [Nat.div_lt_iff_lt_mul (Nat.two_pow_pos _), ← pow_add, Nat.add_comm 8]
    have top := congrArg BitVec.toNat zero
    rwa [bytesOf_succ, List.getD_cons_zero, BitVec.extractLsb'_toNat, Nat.shiftRight_eq_div_pow,
      Nat.mod_eq_of_lt small] at top
  have below : value.toNat < 2 ^ (8 * k) := by
    have := Nat.two_pow_pos (8 * k)
    exact (Nat.div_eq_zero_iff_lt this).1 quotient
  rcases least with one | reached
  · obtain rfl : k = 0 := by omega
    exact positive (BitVec.eq_of_toNat_eq (Nat.lt_one_iff.1 below))
  · exact absurd below (not_lt.2 reached)

/-- Settles O38: both commands take the bytes of the least width. -/
theorem toBytesReturnsTheMinimalBytes : Obligations.ToBytesReturnsTheMinimalBytes := by
  intro s value
  obtain ⟨i, writer, sameRun⟩ := exists_writer_of_writeVarInt value
  refine ⟨varIntWidth value, i, _, writer, sameRun s, exec_unsignedToBytes value s, ?_,
    bytesOf_varIntWidth_head_ne_zero⟩
  rw [offeredBytes_eq_bytesOf, lanesToList_varInt]

/-- Settles O39: the arm's assembly is the big-endian sum. -/
theorem fromBytesAssembles : Obligations.FromBytesAssembles := by
  intro s k lanes
  rw [← assembleBytes_eq_sequenceNumber]
  rfl

/-! ### Round trips (R144, R145) -/

/-- Where a sequence stands in a bound buffer, the buffer has its bytes. -/
theorem Memory.slice_ofBytes (before bs after : List Byte) :
    (Memory.ofBytes (before ++ bs ++ after)).slice before.length bs.length = bs := by
  induction bs generalizing before with
  | nil => rfl
  | cons b bs ih =>
    have first : (Memory.ofBytes (before ++ b :: bs ++ after)).byteAt before.length = b := by
      rw [Memory.byteAt_ofBytes]
      simp
    have rest := ih (before ++ [b])
    rw [List.append_assoc before [b], List.singleton_append, List.length_append,
      List.length_singleton] at rest
    rw [List.length_cons, Memory.slice, first, rest]

/-- A fetch in a freshly bound buffer returns the number of the bytes at its cursor. -/
theorem exec_fetchU_constructed {before bs after : List Byte} {k : Nat} {j : Instr}
    (width : bs.length = k) (fetch : (k, j) ∈ fetchUForms (BitVec.ofNat 64 before.length))
    (short : (before ++ bs ++ after).length ≤ maxBufferLength) (s : State) (pc0 ref : Word) :
    exec j (s.constructed (before ++ bs ++ after) pc0 ref) =
      .next ((s.constructed (before ++ bs ++ after) pc0 ref).respond { okResponse with
        res := BitVec.ofNat 64 (assembleBytes bs)
        res2 := BitVec.ofNat 64 (before.length + k) }) := by
  subst width
  have size : (before ++ bs ++ after).length = before.length + bs.length + after.length := by
    simp only [List.length_append]
  have legal : before.length ≤ maxBufferLength := by omega
  have cursor := toInt_ofNat_of_legal legal
  have bounds : 0 ≤ (BitVec.ofNat 64 before.length).toInt ∧
      (BitVec.ofNat 64 before.length).toInt + bs.length ≤
        (s.constructed (before ++ bs ++ after) pc0 ref).length := by
    rw [State.constructed_length short, cursor]
    omega
  rw [exec_fetchU fetch, State.fetchUnsignedAt_inBounds bounds, State.constructed_buf,
    toNat_ofNat_of_legal legal, ← Memory.assemble_slice, Memory.slice_ofBytes, cursor,
    ← Nat.cast_add, BitVec.ofInt_natCast]

/-- An ideal sink takes all that is offered. -/
theorem State.sinkTakes_ideal {s : State} {k : Nat} (takesAll : k ≤ s.sinkAnswer.count) :
    s.sinkTakes k = k := Nat.min_eq_right takesAll

theorem State.sinkWrite_sink_ideal {s : State} {k : Nat} (takesAll : k ≤ s.sinkAnswer.count)
    (value : Word) : (s.sinkWrite k value).sink = s.sink ++ bytesOf value k := by
  rw [State.sinkWrite_sink, State.sinkTakes_ideal takesAll,
    List.take_of_length_le (bytesOf_length value k).le]

theorem State.sinkWrite_response_ideal {s : State} {k : Nat} (noError : s.sinkAnswer.error = none)
    (takesAll : k ≤ s.sinkAnswer.count) (value : Word) :
    (s.sinkWrite k value).response = { okResponse with res2 := BitVec.ofNat 64 k } := by
  rw [State.sinkWrite_response, State.sinkTakes_ideal takesAll, noError, writeResponse]

/-- The `k` bytes of a value, bound in a buffer, are fetched back as the value modulo `2^(8k)`. -/
theorem fetch_bytesOf_constructed {value : Word} {k : Nat} {before after : List Byte} {j : Instr}
    (fetch : (k, j) ∈ fetchUForms (BitVec.ofNat 64 before.length))
    (short : before.length + k + after.length ≤ maxBufferLength) (t : State) (ref : Word) :
    ∃ u w, exec (.construct (before ++ bytesOf value k ++ after) 0 ref) t = .next u ∧
      exec j u = .next w ∧
      w.response = { okResponse with
        res := BitVec.ofNat 64 (value.toNat % 2 ^ (8 * k))
        res2 := BitVec.ofNat 64 (before.length + k) } := by
  have width := bytesOf_length value k
  have size : (before ++ bytesOf value k ++ after).length ≤ maxBufferLength := by
    rwa [List.length_append, List.length_append, width]
  refine ⟨_, _, exec_construct_of_short 0 ref t size,
    exec_fetchU_constructed width fetch size t 0 ref, ?_⟩
  rw [State.respond_response, assembleBytes_bytesOf]

/-- Settles O40: an ideal sink takes all `k` bytes, and the fetch finds them in the buffer. -/
theorem fixedWidthRoundTrip : Obligations.FixedWidthRoundTrip := by
  intro s value ref k i j before after writer fetch noError takesAll short
  obtain ⟨u, w, bound, read, response⟩ :=
    fetch_bytesOf_constructed (value := value) fetch short (s.sinkWrite k value) ref
  exact ⟨bytesOf value k, s.sinkWrite k value, u, w, exec_writer writer s,
    State.sinkWrite_sink_ideal takesAll value, State.sinkWrite_response_ideal noError takesAll value,
    bound, read, response⟩

/-- The least width keeps the whole value. -/
theorem ofNat_mod_varIntWidth (value : Word) :
    BitVec.ofNat 64 (value.toNat % 2 ^ (8 * varIntWidth value)) = value := by
  obtain ⟨fits, -⟩ := varIntWidth_bounds value
  rw [Nat.mod_eq_of_lt fits, BitVec.ofNat_toNat, BitVec.setWidth_eq]

/-- `UnsignedFromBytes` undoes `UnsignedToBytes`. -/
theorem exec_unsignedFromBytes_of_toBytes (value : Word) (s : State) :
    exec (.unsignedFromBytes (BitVec.ofNat 64 (varIntWidth value))
      (lanesOfList (bytesOf value (varIntWidth value)))) s =
        .next (s.respond { okResponse with res := value }) := by
  have positive := varIntWidth_pos value
  have atMost := varIntWidth_le value
  have count : (BitVec.ofNat 64 (varIntWidth value)).toNat = varIntWidth value :=
    toNat_ofNat_of_legal (atMost.trans (by decide))
  rw [fromBytesAssembles, count, if_pos ⟨positive, atMost⟩, lanesToList_varInt,
    List.take_left' (bytesOf_length _ _), ← assembleBytes_eq_sequenceNumber, assembleBytes_bytesOf,
    ofNat_mod_varIntWidth]

/-- Settles O41: `WriteVarInt` is the writer of a width that keeps the whole value, and
`UnsignedToBytes` puts the same bytes on the lanes. -/
theorem minimalWidthRoundTrip : Obligations.MinimalWidthRoundTrip := by
  constructor
  · intro s value ref before after noError takesEight short
    have atMost := varIntWidth_le value
    have takesAll : varIntWidth value ≤ s.sinkAnswer.count := atMost.trans takesEight
    obtain ⟨j, fetch⟩ :=
      exists_fetchU (BitVec.ofNat 64 before.length) (varIntWidth_pos value) atMost
    obtain ⟨u, w, bound, read, response⟩ := fetch_bytesOf_constructed (value := value)
      (after := after) fetch (by omega) (s.sinkWrite (varIntWidth value) value) ref
    rw [ofNat_mod_varIntWidth] at response
    refine ⟨varIntWidth value, j, bytesOf value (varIntWidth value),
      s.sinkWrite (varIntWidth value) value, u, w, _, fetch, rfl,
      State.sinkWrite_sink_ideal takesAll value, exec_unsignedByteSize value s, ?_, rfl,
      bytesOf_length _ _, bound, read, response⟩
    rw [State.sinkWrite_response_ideal noError takesAll]
    rfl
  · intro s value
    exact ⟨_, _, exec_unsignedToBytes value s, exec_unsignedFromBytes_of_toBytes value _, rfl⟩

end Sys2Proof.Machine

/-! ### The signed decoder and the thread-level dispatchers (41_signed_decoder.md) -/

namespace Sys2Proof.Machine

/-! ### What the thread-level commands write (10_state.md R23) -/

/-- Each command of the table of 10_state.md R23, `Construct` aside, answers, and nothing but `PC` and
the response is new. -/
theorem exec_of_writesPc {i : Instr} (writes : writesPc i = true) (isOther : isConstruct i = false)
    (s : State) : ∃ v r, exec i s = .next ((s.setPc v).respond r) := by
  cases i
  case fetchI8 | fetchI16 | fetchI24 | fetchI32 | fetchI40 | fetchI48 | fetchI56 | fetchI64 =>
    exact State.fetchAtPc_next s _ _
  case fetchSigned count => exact execFetchSigned_next count s
  case fetchUnsigned count => exact execFetchUnsigned_next count s
  case step => exact execStep_next s
  case run => exact stepUpTo_finish_next _ s
  case runFor n => exact stepUpTo_finish_next _ s
  case construct => cases isOther
  all_goals cases writes

/-- Settles O21: a read is of the buffer and its length only, which these commands keep. -/
theorem threadCommandsChangeOnlyPcAndResponse :
    Obligations.ThreadCommandsChangeOnlyPcAndResponse := by
  intro i s t writes isOther run
  obtain ⟨v, r, answer⟩ := exec_of_writesPc writes isOther s
  rw [answer] at run
  cases run
  exact ⟨State.readByte_congr rfl rfl, rfl⟩

/-! ### Two's complement (30_encoding.md R84) -/

/-- A `k`-byte pattern has the two's-complement value of the number it holds. -/
theorem toInt_ofNat_eq_twosComplement {k u : Nat} (positive : 1 ≤ k) (fits : u < 2 ^ (8 * k)) :
    (BitVec.ofNat (8 * k) u).toInt = twosComplement k u := by
  have halves : 2 ^ (8 * k) = 2 * 2 ^ (8 * k - 1) := by
    rw [← pow_succ', Nat.sub_add_cancel (by omega)]
  rw [BitVec.toInt_eq_toNat_cond, BitVec.toNat_ofNat, Nat.mod_eq_of_lt fits, twosComplement]
  split_ifs
  · omega
  · rfl
  · push_cast
    rfl
  · omega

/-- A number and its two's-complement value agree modulo the width. -/
theorem twosComplement_emod {k u : Nat} (fits : u < 2 ^ (8 * k)) :
    twosComplement k u % 2 ^ (8 * k) = u := by
  have inRange : (u : Int) % 2 ^ (8 * k) = u :=
    Int.emod_eq_of_lt (Int.natCast_nonneg u) (by exact_mod_cast fits)
  unfold twosComplement
  split_ifs
  · rw [Int.sub_emod_right, inRange]
  · exact inRange

/-- A `k`-byte number as the port carries its two's-complement value, 64 bits wide. -/
def signedReading (k u : Nat) : Word := BitVec.ofInt 64 (twosComplement k u)

/-- The port is wide enough for the value of every width. -/
theorem toInt_signedReading {k u : Nat} (positive : 1 ≤ k) (atMost : k ≤ 8)
    (fits : u < 2 ^ (8 * k)) : (signedReading k u).toInt = twosComplement k u := by
  rw [signedReading, ← toInt_ofNat_eq_twosComplement positive fits]
  exact BitVec.toInt_signExtend_of_le (by omega)

/-! ### The sign-extension masks (R169) -/

/-- What R169 says of the masks of a `k`-byte number in a `w`-bit accumulator: the negative-bit mask
is the number's sign bit, the sign-extend mask the bits above it. -/
structure SignMasks (k : Nat) {w : Nat} (negative extend : BitVec w) : Prop where
  negativeBit : ∀ j, j < w → negative.getLsbD j = decide (j = 8 * k - 1)
  extendBit : ∀ j, j < w → extend.getLsbD j = decide (8 * k ≤ j)

theorem signMasks24 : SignMasks 3 (0x00800000 : BitVec 32) 0xFF000000 where
  negativeBit := by decide
  extendBit := by decide

theorem signMasks40 : SignMasks 5 (0x0000008000000000 : Word) 0xFFFFFF0000000000 where
  negativeBit := by decide
  extendBit := by decide

theorem signMasks48 : SignMasks 6 (0x0000800000000000 : Word) 0xFFFF000000000000 where
  negativeBit := by decide
  extendBit := by decide

theorem signMasks56 : SignMasks 7 (0x0080000000000000 : Word) 0xFF00000000000000 where
  negativeBit := by decide
  extendBit := by decide

theorem getLsbD_ofNat_of_lt {n j : Nat} (u : Nat) (inside : j < n) :
    (BitVec.ofNat n u).getLsbD j = u.testBit j := by
  rw [BitVec.getLsbD_ofNat, decide_eq_true inside, Bool.true_and]

/-- Sign extension of a `k`-byte number: its bits, and its sign bit above them. -/
theorem getLsbD_signExtend_ofNat {k w j : Nat} (positive : 1 ≤ k) (u : Nat) (inside : j < w) :
    ((BitVec.ofNat (8 * k) u).signExtend w).getLsbD j =
      if j < 8 * k then u.testBit j else u.testBit (8 * k - 1) := by
  rw [BitVec.getLsbD_signExtend, decide_eq_true inside, Bool.true_and,
    BitVec.msb_eq_getLsbD_last]
  split_ifs with low
  · exact getLsbD_ofNat_of_lt u low
  · exact getLsbD_ofNat_of_lt u (by omega)

section
variable {k w : Nat} {negative extend : BitVec w}

/-- The test of the mask procedure is the accumulator's sign bit. -/
theorem SignMasks.and_negative_eq_zero_iff (masks : SignMasks k negative extend)
    (positive : 1 ≤ k) (fitsWord : 8 * k ≤ w) (acc : BitVec w) :
    acc &&& negative = 0 ↔ acc.getLsbD (8 * k - 1) = false := by
  constructor
  · intro masked
    have signBit := congrArg (fun x => x.getLsbD (8 * k - 1)) masked
    simpa [masks.negativeBit (8 * k - 1) (by omega)] using signBit
  · intro signBit
    refine BitVec.eq_of_getLsbD_eq fun j inside => ?_
    by_cases onSign : j = 8 * k - 1
    · simp [onSign, signBit]
    · simp [masks.negativeBit j inside, onSign]

/-- The mask procedure is sign extension from the number's own width: below bit `8k` both have the
number's bits, from there on both have its sign. -/
theorem SignMasks.apply_eq_signExtend (masks : SignMasks k negative extend) (positive : 1 ≤ k)
    (fitsWord : 8 * k ≤ w) {u : Nat} (fits : u < 2 ^ (8 * k)) :
    applySignMasks (BitVec.ofNat w u) negative extend = (BitVec.ofNat (8 * k) u).signExtend w := by
  have test := masks.and_negative_eq_zero_iff positive fitsWord (BitVec.ofNat w u)
  rw [getLsbD_ofNat_of_lt u (by omega)] at test
  refine BitVec.eq_of_getLsbD_eq fun j inside => ?_
  have above : ¬ j < 8 * k → u.testBit j = false := fun high =>
    Nat.testBit_lt_two_pow (fits.trans_le (Nat.pow_le_pow_right (by norm_num) (not_lt.1 high)))
  unfold applySignMasks
  rw [getLsbD_signExtend_ofNat positive u inside]
  cases sign : u.testBit (8 * k - 1) with
  | false =>
    rw [if_neg (not_not.2 (test.2 sign)), getLsbD_ofNat_of_lt u inside]
    split_ifs with low
    · rfl
    · exact above low
  | true =>
    have isNegative : BitVec.ofNat w u &&& negative ≠ 0 := mt test.1 (by rw [sign]; decide)
    rw [if_pos isNegative, BitVec.getLsbD_or, getLsbD_ofNat_of_lt u inside,
      masks.extendBit j inside]
    split_ifs with low
    · rw [decide_eq_false (not_le.2 low), Bool.or_false]
    · rw [decide_eq_true (not_lt.1 low), Bool.or_true]

/-- It gives the two's-complement value. -/
theorem SignMasks.toInt_apply (masks : SignMasks k negative extend) (positive : 1 ≤ k)
    (fitsWord : 8 * k ≤ w) {u : Nat} (fits : u < 2 ^ (8 * k)) :
    (applySignMasks (BitVec.ofNat w u) negative extend).toInt = twosComplement k u := by
  rw [masks.apply_eq_signExtend positive fitsWord fits, BitVec.toInt_signExtend_of_le fitsWord,
    toInt_ofNat_eq_twosComplement positive fits]

end

/-- Settles O30. -/
theorem signMasksExtendTheSign : Obligations.SignMasksExtendTheSign := by
  refine ⟨fun j inside => ⟨signMasks24.negativeBit j inside, signMasks24.extendBit j inside⟩,
    fun j inside => ⟨signMasks40.negativeBit j inside, signMasks40.extendBit j inside,
      signMasks48.negativeBit j inside, signMasks48.extendBit j inside,
      signMasks56.negativeBit j inside, signMasks56.extendBit j inside⟩, ?_, ?_, ?_, ?_⟩
  · exact fun u fits => signMasks24.toInt_apply (by norm_num) (by norm_num) fits
  · exact fun u fits => signMasks40.toInt_apply (by norm_num) (by norm_num) fits
  · exact fun u fits => signMasks48.toInt_apply (by norm_num) (by norm_num) fits
  · exact fun u fits => signMasks56.toInt_apply (by norm_num) (by norm_num) fits

/-! ### Fetches at `PC` (R160 to R168) -/

theorem State.fetchAtPc_inBounds {s : State} {k : Nat} {deliver : Nat → Word}
    (bounds : 0 ≤ s.pc.toInt ∧ s.pc.toInt + k ≤ s.length) :
    s.fetchAtPc k deliver =
      .next ((s.setPc (BitVec.ofInt 64 (s.pc.toInt + k))).respond { okResponse with
        res := deliver (s.buf.number s.pc.toNat k)
        res2 := BitVec.ofInt 64 (s.pc.toInt + k) }) := by
  have index : s.pc.toInt.toNat = s.pc.toNat := by
    rw [toInt_eq_toNat_of_nonneg bounds.1, Int.toNat_natCast]
  rw [State.fetchAtPc_eq, if_pos ((s.inBounds_iff _ _).2 bounds), index, add_ofNat_eq_ofInt]

theorem State.fetchAtPc_outOfBounds {s : State} {k : Nat} {deliver : Nat → Word}
    (outside : ¬ (0 ≤ s.pc.toInt ∧ s.pc.toInt + k ≤ s.length)) :
    s.fetchAtPc k deliver = .next (s.raise (.notEnoughBytes (BitVec.ofNat 64 k))) := by
  rw [State.fetchAtPc_eq, if_neg (mt (s.inBounds_iff _ _).1 outside)]

/-- A fetch of `k` bytes asks its reading only for numbers below `2^(8k)`. -/
theorem State.fetchAtPc_congr {s : State} {k : Nat} {deliver reading : Nat → Word}
    (agree : ∀ u, u < 2 ^ (8 * k) → deliver u = reading u) :
    s.fetchAtPc k deliver = s.fetchAtPc k reading := by
  rw [State.fetchAtPc_eq, State.fetchAtPc_eq, agree _ (Memory.number_lt _ _ _)]

/-- A native width reads two's complement. -/
theorem State.fetchAtPc_nativeSigned {s : State} {k : Nat} (positive : 1 ≤ k) :
    s.fetchAtPc k (nativeSigned (8 * k)) = s.fetchAtPc k (signedReading k) :=
  State.fetchAtPc_congr fun _ fits =>
    congrArg (BitVec.ofInt 64) (toInt_ofNat_eq_twosComplement positive fits)

/-- So does a masked accumulator, sign-extended to the port. -/
theorem SignMasks.signExtend_apply {k w : Nat} {negative extend : BitVec w}
    (masks : SignMasks k negative extend) (positive : 1 ≤ k) (fitsWord : 8 * k ≤ w) {u : Nat}
    (fits : u < 2 ^ (8 * k)) :
    (applySignMasks (BitVec.ofNat w u) negative extend).signExtend 64 = signedReading k u :=
  congrArg (BitVec.ofInt 64) (masks.toInt_apply positive fitsWord fits)

/-- An accumulator as wide as the port needs no extension. -/
theorem State.fetchAtPc_masked {s : State} {k : Nat} {negative extend : Word}
    (masks : SignMasks k negative extend) (positive : 1 ≤ k) (fitsWord : 8 * k ≤ 64) :
    s.fetchAtPc k (fun u => applySignMasks (BitVec.ofNat 64 u) negative extend) =
      s.fetchAtPc k (signedReading k) :=
  State.fetchAtPc_congr fun _ fits => by
    rw [← masks.signExtend_apply positive fitsWord fits, BitVec.signExtend_eq]

/-- Native width or masked accumulator, each of the eight `FetchI` commands is the common fetch of
its byte count with the two's-complement reading (R160). -/
theorem exec_fetchI {k : Nat} {i : Instr} (fetch : (k, i) ∈ fetchIForms) (s : State) :
    exec i s = s.fetchAtPc k (signedReading k) := by
  simp only [fetchIForms, List.mem_cons, Prod.mk.injEq, List.not_mem_nil, or_false] at fetch
  rcases fetch with ⟨rfl, rfl⟩ | ⟨rfl, rfl⟩ | ⟨rfl, rfl⟩ | ⟨rfl, rfl⟩ | ⟨rfl, rfl⟩ | ⟨rfl, rfl⟩ |
    ⟨rfl, rfl⟩ | ⟨rfl, rfl⟩
  · exact State.fetchAtPc_nativeSigned (k := 1) le_rfl
  · exact State.fetchAtPc_nativeSigned (k := 2) (by norm_num)
  · exact State.fetchAtPc_congr fun _ fits =>
      signMasks24.signExtend_apply (by norm_num) (by norm_num) fits
  · exact State.fetchAtPc_nativeSigned (k := 4) (by norm_num)
  · exact State.fetchAtPc_masked signMasks40 (by norm_num) (by norm_num)
  · exact State.fetchAtPc_masked signMasks48 (by norm_num) (by norm_num)
  · exact State.fetchAtPc_masked signMasks56 (by norm_num) (by norm_num)
  · exact State.fetchAtPc_nativeSigned (k := 8) (by norm_num)

theorem fetchIForms_width {k : Nat} {i : Instr} (fetch : (k, i) ∈ fetchIForms) :
    1 ≤ k ∧ k ≤ 8 := by
  simp only [fetchIForms, List.mem_cons, Prod.mk.injEq, List.not_mem_nil, or_false] at fetch
  omega

/-- Every width of 1 to 8 bytes has its signed fetch. -/
theorem exists_fetchI {k : Nat} (positive : 1 ≤ k) (atMost : k ≤ 8) :
    ∃ i, (k, i) ∈ fetchIForms := by
  interval_cases k <;> simp [fetchIForms]

/-- Settles O28. -/
theorem fetchIReadsTwosComplement : Obligations.FetchIReadsTwosComplement := by
  intro s k i fetch low high
  exact (exec_fetchI fetch s).trans (State.fetchAtPc_inBounds ⟨low, high⟩)

/-- Settles O29. -/
theorem fetchIOutOfBoundsFails : Obligations.FetchIOutOfBoundsFails := by
  intro s k i fetch outside
  exact (exec_fetchI fetch s).trans (State.fetchAtPc_outOfBounds outside)

/-! ### The dispatchers (R170, R171) -/

/-- A count in 1..8 is the same number signed and unsigned. -/
theorem count_toInt_eq_toNat {count : Word} (inside : ¬ (count.toInt < 1 ∨ 8 < count.toInt)) :
    count.toInt = count.toNat := toInt_eq_toNat_of_nonneg (by omega)

theorem exec_fetchSigned_badSize {count : Word} (bad : count.toInt < 1 ∨ 8 < count.toInt)
    (s : State) : exec (.fetchSigned count) s = .next (s.raise (.invalidImmediateSize count)) :=
  if_pos bad

/-- A width that is the count is the one `FetchSigned` routes to. -/
theorem exec_fetchSigned_of_width {count : Word} {k : Nat} {i : Instr}
    (fetch : (k, i) ∈ fetchIForms) (size : count.toInt = k) (s : State) :
    exec (.fetchSigned count) s = exec i s := by
  obtain ⟨positive, atMost⟩ := fetchIForms_width fetch
  have inside : ¬ (count.toInt < 1 ∨ 8 < count.toInt) := by omega
  have width : count.toNat = k := by
    have := count_toInt_eq_toNat inside
    omega
  have routes : exec (.fetchSigned count) s = fetchSignedOfWidth k s := by
    rw [← width]
    exact if_neg inside
  rw [routes]
  simp only [fetchIForms, List.mem_cons, Prod.mk.injEq, List.not_mem_nil, or_false] at fetch
  rcases fetch with ⟨rfl, rfl⟩ | ⟨rfl, rfl⟩ | ⟨rfl, rfl⟩ | ⟨rfl, rfl⟩ | ⟨rfl, rfl⟩ | ⟨rfl, rfl⟩ |
    ⟨rfl, rfl⟩ | ⟨rfl, rfl⟩ <;> rfl

/-- Settles O31: in bounds it is the `FetchI` command it routes to (O28). -/
theorem fetchSignedDispatches : Obligations.FetchSignedDispatches := by
  intro s count
  refine ⟨fun bad => exec_fetchSigned_badSize bad s,
    fun k i fetch size => exec_fetchSigned_of_width fetch size s, ?_⟩
  intro positive atMost low high
  have size : count.toInt = count.toNat := count_toInt_eq_toNat (by omega)
  obtain ⟨i, fetch⟩ : ∃ i, (count.toNat, i) ∈ fetchIForms := exists_fetchI (by omega) (by omega)
  rw [exec_fetchSigned_of_width fetch size s, size]
  rw [size] at high
  exact fetchIReadsTwosComplement s count.toNat i fetch low high

theorem exec_fetchUnsigned_badSize {count : Word} (bad : count.toInt < 1 ∨ 8 < count.toInt)
    (s : State) : exec (.fetchUnsigned count) s = .next (s.raise (.invalidImmediateSize count)) :=
  if_pos bad

theorem exec_fetchUnsigned_goodSize {count : Word} (good : ¬ (count.toInt < 1 ∨ 8 < count.toInt))
    (s : State) :
    exec (.fetchUnsigned count) s = s.fetchAtPc count.toNat (BitVec.ofNat 64) :=
  if_neg good

/-- Settles O32. -/
theorem fetchUnsignedDispatches : Obligations.FetchUnsignedDispatches := by
  intro s count
  by_cases bad : count.toInt < 1 ∨ 8 < count.toInt
  · rw [if_pos bad, exec_fetchUnsigned_badSize bad s]
  rw [if_neg bad, exec_fetchUnsigned_goodSize bad s, count_toInt_eq_toNat bad]
  split_ifs with bounds
  · exact State.fetchAtPc_inBounds bounds
  · rw [State.fetchAtPc_outOfBounds bounds, BitVec.ofNat_toNat, BitVec.setWidth_eq]

/-! ### The two readings of the same bytes (R172) -/

theorem exec_fetchUnsigned_ofNat {k : Nat} (positive : 1 ≤ k) (atMost : k ≤ 8) (s : State) :
    exec (.fetchUnsigned (BitVec.ofNat 64 k)) s = s.fetchAtPc k (BitVec.ofNat 64) := by
  have legal : k ≤ maxBufferLength := atMost.trans (by decide)
  have signed := toInt_ofNat_of_legal legal
  rw [exec_fetchUnsigned_goodSize (by omega) s, toNat_ofNat_of_legal legal]

/-- The port is wide enough for the number of every width. -/
theorem toNat_ofNat_of_width {k u : Nat} (atMost : k ≤ 8) (fits : u < 2 ^ (8 * k)) :
    (BitVec.ofNat 64 u).toNat = u := by
  have narrow : 2 ^ (8 * k) ≤ 2 ^ 64 := Nat.pow_le_pow_right (by norm_num) (by omega)
  exact (BitVec.toNat_ofNat ..).trans (Nat.mod_eq_of_lt (fits.trans_le narrow))

/-- Settles O33: the two are the common fetch of `k` bytes with two readings of one number. -/
theorem signedAndUnsignedReadingsAgree : Obligations.SignedAndUnsignedReadingsAgree := by
  intro s k i fetch
  obtain ⟨positive, atMost⟩ := fetchIForms_width fetch
  rw [exec_fetchI fetch s, exec_fetchUnsigned_ofNat positive atMost s]
  by_cases bounds : 0 ≤ s.pc.toInt ∧ s.pc.toInt + k ≤ s.length
  · have fits := Memory.number_lt s.buf s.pc.toNat k
    refine ⟨_, _, State.fetchAtPc_inBounds bounds, State.fetchAtPc_inBounds bounds, rfl, rfl,
      fun _ => ?_⟩
    have signed := toInt_signedReading positive atMost fits
    have unsigned := toNat_ofNat_of_width atMost fits
    simp only [State.respond_response, signed, unsigned]
    exact ⟨rfl, twosComplement_emod fits⟩
  · refine ⟨_, _, State.fetchAtPc_outOfBounds bounds, State.fetchAtPc_outOfBounds bounds, rfl, rfl,
      fun success => ?_⟩
    cases success

end Sys2Proof.Machine

/-! ### The kinds and their conversions (42_value_types.md) -/

namespace Sys2Proof.Machine

/-! ### The commands that read their operands only -/

/-- Settles O20: of the shapes of an outcome, an answer and a draw are left, and a read is of the
buffer and its length only. -/
theorem pureCommandsChangeOnlyTheResponse : Obligations.PureCommandsChangeOnlyTheResponse := by
  intro i s t noPc noSink run
  have shape := exec_shape i s
  rw [run] at shape
  cases shape with
  | answer r pure => exact ⟨State.readByte_congr rfl rfl, .inl rfl⟩
  | draw r draws => exact ⟨State.readByte_congr rfl rfl, .inr ⟨draws, rfl⟩⟩
  | thread v r writes =>
    obtain ⟨writes, -⟩ := writes
    rw [noPc] at writes
    cases writes
  | sink n v atMost writes =>
    rw [noSink] at writes
    cases writes
  | construct buffer pc0 ref isIt short =>
    subst isIt
    cases noPc

/-! ### The table of kinds (R190, R196, R197) -/

theorem mem_numericKinds_iff {k : Kind} {n : Nat} :
    (k, n) ∈ numericKinds ↔ kindByteSize k = some n := by
  cases k <;> simp [numericKinds, kindByteSize, eq_comm]

theorem mem_reservedKinds_iff {k : Kind} : k ∈ reservedKinds ↔ kindByteSize k = none := by
  cases k <;> simp [reservedKinds, kindByteSize]

theorem kindFamily_of_mem_reservedKinds {k : Kind} (reserved : k ∈ reservedKinds) :
    kindFamily k = .reserved := by
  revert reserved
  cases k <;> simp [reservedKinds, kindFamily]

theorem mem_integerKinds_iff {k : Kind} {w : Nat} :
    (k, w) ∈ integerKinds ↔
      (kindFamily k = .unsigned ∨ kindFamily k = .signed) ∧ kindBits k = w := by
  cases k <;> simp [integerKinds, kindFamily, kindBits, kindByteSize, eq_comm]

theorem integerKinds_width_le {k : Kind} {w : Nat} (integer : (k, w) ∈ integerKinds) : w ≤ 64 := by
  simp only [integerKinds, List.mem_cons, Prod.mk.injEq, List.not_mem_nil, or_false] at integer
  omega

theorem canonicalKind_numeric (c : CanonicalKind) : kindByteSize (canonicalKind c) = some 8 := by
  cases c <;> rfl

/-! ### `KindInfo` (R196) -/

theorem exec_kindInfo_of_size {k : Kind} {n : Nat} (size : kindByteSize k = some n) (s : State) :
    exec (.kindInfo (.kind k)) s = s.returnValue k (BitVec.ofNat 64 n) := by
  simp only [exec, execKindInfo, size]

theorem exec_kindInfo_of_noSize {k : Kind} (size : kindByteSize k = none) (s : State) :
    exec (.kindInfo (.kind k)) s = .refused (.kindInfoOperand (.kind k)) := by
  simp only [exec, execKindInfo, size]

/-- Settles O42. -/
theorem kindInfoReturnsTheSize : Obligations.KindInfoReturnsTheSize := fun s =>
  ⟨fun _ _ numeric => exec_kindInfo_of_size (mem_numericKinds_iff.1 numeric) s,
    fun _ reserved => exec_kindInfo_of_noSize (mem_reservedKinds_iff.1 reserved) s,
    fun _ => rfl⟩

/-! ### Payloads of a width (R191; 30_encoding.md R90) -/

theorem zeroExtended_eq_ofNat (w : Nat) (p : Word) :
    zeroExtended w p = BitVec.ofNat 64 (p.toNat % 2 ^ w) := by
  apply BitVec.eq_of_toNat_eq
  simp [zeroExtended]

theorem toNat_zeroExtended_lt (w : Nat) (p : Word) : (zeroExtended w p).toNat < 2 ^ w := by
  have kept : (zeroExtended w p).toNat ≤ p.toNat % 2 ^ w := by
    rw [zeroExtended_eq_ofNat, BitVec.toNat_ofNat]
    exact Nat.mod_le ..
  exact kept.trans_lt (Nat.mod_lt _ (by positivity))

theorem toNat_zeroExtended {w : Nat} (fits : w ≤ 64) (p : Word) :
    (zeroExtended w p).toNat = p.toNat % 2 ^ w := by
  have narrow : 2 ^ w ≤ 2 ^ 64 := Nat.pow_le_pow_right (by norm_num) fits
  rw [zeroExtended_eq_ofNat, BitVec.toNat_ofNat]
  exact Nat.mod_eq_of_lt ((Nat.mod_lt _ (by positivity)).trans_le narrow)

theorem zeroExtended_all (p : Word) : zeroExtended 64 p = p := by simp [zeroExtended]

theorem signExtended_eq_ofInt (w : Nat) (p : Word) :
    signExtended w p = BitVec.ofInt 64 (Int.bmod p.toNat (2 ^ w)) := by
  rw [signExtended, BitVec.signExtend, BitVec.toInt_setWidth]

theorem signExtended_all (p : Word) : signExtended 64 p = p := by simp [signExtended]

theorem wrapPayload_eq_ofInt {w : Nat} (fits : w ≤ 64) (x : Int) :
    wrapPayload w x = BitVec.ofInt 64 (x % 2 ^ w) := by
  have narrow : (2 : Int) ^ w ≤ 2 ^ 64 := pow_le_pow_right₀ (by norm_num) fits
  have low : 0 ≤ x % 2 ^ w := Int.emod_nonneg _ (by positivity)
  have high : x % 2 ^ w < 2 ^ w := Int.emod_lt_of_pos _ (by positivity)
  apply BitVec.eq_of_toNat_eq
  simp only [wrapPayload, BitVec.toNat_setWidth, BitVec.toNat_ofInt]
  push_cast
  omega

/-! ### `Upcast` (R199 to R209) -/

theorem exec_upcast_unsigned {k : Kind} {w : Nat} (unsigned : (k, w) ∈ unsignedKinds) (p : Word)
    (s : State) : exec (.upcast (.kind k) p) s = s.returnValue .uint64 (zeroExtended w p) := by
  simp only [unsignedKinds, List.mem_cons, Prod.mk.injEq, List.not_mem_nil, or_false] at unsigned
  rcases unsigned with ⟨rfl, rfl⟩ | ⟨rfl, rfl⟩ | ⟨rfl, rfl⟩ | ⟨rfl, rfl⟩
  · rfl
  · rfl
  · rfl
  · rw [zeroExtended_all]
    rfl

theorem exec_upcast_signed {k : Kind} {w : Nat} (signed : (k, w) ∈ signedKinds) (p : Word)
    (s : State) : exec (.upcast (.kind k) p) s = s.returnValue .int64 (signExtended w p) := by
  simp only [signedKinds, List.mem_cons, Prod.mk.injEq, List.not_mem_nil, or_false] at signed
  rcases signed with ⟨rfl, rfl⟩ | ⟨rfl, rfl⟩ | ⟨rfl, rfl⟩ | ⟨rfl, rfl⟩
  · rfl
  · rfl
  · rfl
  · rw [signExtended_all]
    rfl

theorem exec_upcast_of_noSize {k : Kind} (size : kindByteSize k = none) (p : Word) (s : State) :
    exec (.upcast (.kind k) p) s = .refused (.upcastOperand (.kind k)) := by
  cases k
  case boolean | string | list | map | struct | class_ | function | method => rfl
  all_goals cases size

/-- Settles O43. -/
theorem upcastKeepsTheNumber : Obligations.UpcastKeepsTheNumber := by
  intro s p
  refine ⟨fun k w unsigned => ?_, fun k w signed => ?_, rfl⟩
  · rw [exec_upcast_unsigned unsigned, zeroExtended_eq_ofNat, State.returnValue_eq]
  · rw [exec_upcast_signed signed, signExtended_eq_ofInt, State.returnValue_eq]

/-! ### `Downcast` of a StackValue (R210) -/

theorem exec_downcast (c : CanonicalKind) (p : Word) (target : KindTag) (s : State) :
    exec (.downcast (.kind (canonicalKind c)) p target) s = downcastStackValue c p target s := by
  cases c <;> rfl

theorem exec_downcast_of_not_canonical {source : KindTag}
    (outside : ∀ c, source ≠ .kind (canonicalKind c)) (p : Word) (target : KindTag) (s : State) :
    exec (.downcast source p target) s = .refused (.downcastOperand source) := by
  simp only [exec, execDowncast]
  split
  · exact absurd rfl (outside .uint64)
  · exact absurd rfl (outside .int64)
  · exact absurd rfl (outside .float64)
  · rfl

/-- The identity is tested first, and then the target's family selects. -/
theorem exec_downcast_reserved {k : Kind} (reserved : kindFamily k = .reserved) (c : CanonicalKind)
    (p : Word) (s : State) :
    exec (.downcast (.kind (canonicalKind c)) p (.kind k)) s =
      .next (s.raise (.castError (canonicalKind c) (.kind k))) := by
  have other : KindTag.kind k ≠ .kind (canonicalKind c) := by
    rintro ⟨rfl⟩
    cases c <;> cases reserved
  simp only [exec_downcast, downcastStackValue, if_neg other, reserved]

theorem exec_downcast_integer {c : CanonicalKind} {k : Kind} {w : Nat}
    (integer : (k, w) ∈ integerKinds) (other : k ≠ canonicalKind c) (p : Word) (s : State) :
    exec (.downcast (.kind (canonicalKind c)) p (.kind k)) s = downcastToInteger c p k s := by
  have notSelf : KindTag.kind k ≠ .kind (canonicalKind c) := mt KindTag.kind.inj other
  obtain ⟨family | family, -⟩ := mem_integerKinds_iff.1 integer
  · simp only [exec_downcast, downcastStackValue, if_neg notSelf, family]
  · simp only [exec_downcast, downcastStackValue, if_neg notSelf, family]

theorem exec_downcast_float {c : CanonicalKind} {k : Kind} (float : kindFamily k = .float)
    (other : k ≠ canonicalKind c) (p : Word) (s : State) :
    exec (.downcast (.kind (canonicalKind c)) p (.kind k)) s = downcastToFloat c p k s := by
  have notSelf : KindTag.kind k ≠ .kind (canonicalKind c) := mt KindTag.kind.inj other
  simp only [exec_downcast, downcastStackValue, if_neg notSelf, float]

/-- Settles O46: outside the ten kinds and outside the three, only the last line of each meaning is
left. -/
theorem castsOutsideTheDomainAreRefused : Obligations.CastsOutsideTheDomainAreRefused := by
  intro s p source target
  refine ⟨fun outside => ?_, fun outside => exec_downcast_of_not_canonical outside p target s⟩
  cases source with
  | unassigned n => rfl
  | kind k =>
    apply exec_upcast_of_noSize
    rw [Option.eq_none_iff_forall_ne_some]
    exact fun n size => outside k n (mem_numericKinds_iff.2 size) rfl

/-- Settles O47. -/
theorem downcastToSelfIsIdentity : Obligations.DowncastToSelfIsIdentity := by
  intro s c p
  rw [exec_downcast, downcastStackValue, if_pos rfl, State.returnValue_eq]

/-- Settles O48. -/
theorem downcastToReservedFails : Obligations.DowncastToReservedFails := by
  intro s c p
  refine ⟨fun k reserved => ?_, fun n => ?_⟩
  · exact exec_downcast_reserved (kindFamily_of_mem_reservedKinds reserved) c p s
  · cases c <;> rfl

/-! ### Integer targets (R212 to R215, R221 to R223) -/

theorem downcastToInteger_of_integerOf {c : CanonicalKind} {p : Word} {x : Int} {k : Kind} {w : Nat}
    (number : integerOf c p = some x) (integer : (k, w) ∈ integerKinds) (s : State) :
    downcastToInteger c p k s = s.returnValue k (BitVec.ofInt 64 (x % 2 ^ w)) := by
  obtain ⟨-, width⟩ := mem_integerKinds_iff.1 integer
  rw [← wrapPayload_eq_ofInt (integerKinds_width_le integer), ← width]
  cases c <;> cases number <;> rfl

/-- The number of an integer kind's own payload gives that payload back. -/
theorem ofInt_emod_of_integerOf {c : CanonicalKind} {p : Word} {x : Int}
    (number : integerOf c p = some x) : BitVec.ofInt 64 (x % 2 ^ 64) = p := by
  rw [← wrapPayload_eq_ofInt le_rfl]
  cases c <;> cases number <;> simp [wrapPayload]

/-- Settles O49: the identity keeps the low 64 bits too. -/
theorem integerDowncastWraps : Obligations.IntegerDowncastWraps := by
  intro s c p x k w number integer
  by_cases self : k = canonicalKind c
  · subst self
    have width : w = 64 := by
      obtain ⟨-, width⟩ := mem_integerKinds_iff.1 integer
      rw [← width, kindBits, canonicalKind_numeric]
      rfl
    rw [downcastToSelfIsIdentity, width, ofInt_emod_of_integerOf number]
  · rw [exec_downcast_integer integer self, downcastToInteger_of_integerOf number integer,
      State.returnValue_eq]

theorem exec_downcast_float64_integer {k : Kind} {w : Nat} (integer : (k, w) ∈ integerKinds)
    (p : Word) (s : State) :
    exec (.downcast (.kind .float64) p (.kind k)) s = s.returnValue k (floatToInteger p k) := by
  have other : k ≠ canonicalKind .float64 := by
    rintro rfl
    obtain ⟨family | family, -⟩ := mem_integerKinds_iff.1 integer <;> cases family
  exact exec_downcast_integer integer other p s

/-- Settles O53: the value is the free function's, cut to the target's width, and the state has no
part in it. -/
theorem nonFiniteToIntegerIsAFunction : Obligations.NonFiniteToIntegerIsAFunction := by
  intro p k w integer nonFinite
  refine ⟨zeroExtended w (Config.f2iNonfinite p k), toNat_zeroExtended_lt .., fun s => ?_⟩
  obtain ⟨-, width⟩ := mem_integerKinds_iff.1 integer
  rw [exec_downcast_float64_integer integer, floatToInteger, nonFinite, width,
    if_neg Bool.false_ne_true, State.returnValue_eq]

end Sys2Proof.Machine

/-! ### Binary floating point (42_value_types.md R191, R192) -/

namespace Sys2Proof.Machine

/-! ### Signed numbers -/

/-- The factor a sign bit stands for. -/
def signFactor (negative : Bool) : ℚ := if negative then -1 else 1

theorem abs_signFactor_mul (b : Bool) (x : ℚ) : |signFactor b * x| = |x| := by
  cases b <;> simp [signFactor]

theorem abs_signFactor_sub_same (b : Bool) (a x : ℚ) :
    |signFactor b * a - signFactor b * x| = |a - x| := by
  rw [← mul_sub, abs_signFactor_mul]

theorem abs_signFactor_sub_other {b c : Bool} (differ : c ≠ b) {a x : ℚ} (ha : 0 ≤ a)
    (hx : 0 ≤ x) :
    |signFactor c * a - signFactor b * x| = a + x := by
  have flip : signFactor b = -signFactor c := by
    cases b <;> cases c <;> simp_all [signFactor]
  rw [flip, neg_mul, sub_neg_eq_add, ← mul_add, abs_signFactor_mul, abs_of_nonneg (add_nonneg ha hx)]

/-- Of two numbers the upper one is the nearer from their midpoint on. -/
theorem abs_upper_le_iff {a b x : ℚ} (less : a < b) : |b - x| ≤ |a - x| ↔ a + b ≤ 2 * x := by
  rw [← sq_le_sq]
  constructor <;> intro h <;> nlinarith

theorem abs_lower_le_iff {a b x : ℚ} (less : a < b) : |a - x| ≤ |b - x| ↔ 2 * x ≤ a + b := by
  rw [← sq_le_sq]
  constructor <;> intro h <;> nlinarith

/-! ### Sign and magnitude -/

theorem FloatFormat.sign_withSign {f : FloatFormat} {mag : Nat}
    (fits : mag < 2 ^ (f.width - 1)) (b : Bool) :
    f.sign (f.withSign b mag) = b := by
  cases b
  · exact Nat.testBit_lt_two_pow fits
  · rw [FloatFormat.sign, FloatFormat.withSign, if_pos rfl, Nat.testBit_two_pow_add_eq,
      Nat.testBit_lt_two_pow fits]
    rfl

theorem FloatFormat.magnitude_withSign {f : FloatFormat} {mag : Nat}
    (fits : mag < 2 ^ (f.width - 1)) (b : Bool) :
    f.magnitude (f.withSign b mag) = mag := by
  cases b
  · exact Nat.mod_eq_of_lt fits
  · rw [FloatFormat.magnitude, FloatFormat.withSign, if_pos rfl, Nat.add_mod_left,
      Nat.mod_eq_of_lt fits]

/-! ### The fields of a format -/

/-- The sign bit, the exponent field and the fraction fill the pattern. -/
structure FloatFormat.Layout (f : FloatFormat) : Prop where
  hiddenBit : 2 ≤ f.precision
  someFinite : 1 ≤ f.expOnes
  signBit : 1 ≤ f.width
  fields : (f.expOnes + 1) * 2 ^ (f.precision - 1) = 2 ^ (f.width - 1)

theorem binary32_layout : binary32.Layout where
  hiddenBit := by decide
  someFinite := by decide
  signBit := by decide
  fields := by decide

theorem binary64_layout : binary64.Layout where
  hiddenBit := by decide
  someFinite := by decide
  signBit := by decide
  fields := by decide

/-- How many magnitudes share one exponent field. -/
def FloatFormat.binade (f : FloatFormat) : Nat := 2 ^ (f.precision - 1)

theorem FloatFormat.binade_pos (f : FloatFormat) : 0 < f.binade := Nat.two_pow_pos _

theorem FloatFormat.infinity_eq (f : FloatFormat) : f.infinity = f.expOnes * f.binade := rfl

namespace FloatFormat.Layout

variable {f : FloatFormat} (layout : f.Layout)
include layout

theorem binade_even : f.binade % 2 = 0 := by
  have exponent : f.precision - 1 = (f.precision - 2) + 1 := by
    have := layout.hiddenBit
    omega
  rw [FloatFormat.binade, exponent, pow_succ, Nat.mul_mod_left]

theorem infinity_add_binade : f.infinity + f.binade = 2 ^ (f.width - 1) := by
  rw [← layout.fields, FloatFormat.infinity_eq, FloatFormat.binade, add_one_mul]

theorem infinity_lt : f.infinity < 2 ^ (f.width - 1) := by
  have := layout.infinity_add_binade
  have := f.binade_pos
  omega

theorem infinity_pos : 0 < f.infinity := Nat.mul_pos layout.someFinite f.binade_pos

theorem infinity_even : f.infinity % 2 = 0 := by
  rw [FloatFormat.infinity_eq, Nat.mul_mod, layout.binade_even, mul_zero, Nat.zero_mod]

theorem two_pow_width : 2 ^ f.width = 2 ^ (f.width - 1) + 2 ^ (f.width - 1) := by
  rw [← Nat.two_pow_pred_add_two_pow_pred layout.signBit]

theorem withSign_lt {mag : Nat} (fits : mag < 2 ^ (f.width - 1)) (b : Bool) :
    f.withSign b mag < 2 ^ f.width := by
  rw [layout.two_pow_width, FloatFormat.withSign]
  split <;> omega

/-- A pattern is its sign and its magnitude. -/
theorem withSign_sign_magnitude {bits : Nat} (fits : bits < 2 ^ f.width) :
    f.withSign (f.sign bits) (f.magnitude bits) = bits := by
  rw [layout.two_pow_width] at fits
  rw [FloatFormat.sign, FloatFormat.magnitude]
  by_cases low : bits < 2 ^ (f.width - 1)
  · rw [Nat.testBit_lt_two_pow low, Nat.mod_eq_of_lt low]
    rfl
  · obtain ⟨rest, rfl⟩ := Nat.exists_eq_add_of_le (not_lt.1 low)
    have restFits : rest < 2 ^ (f.width - 1) := by omega
    rw [Nat.testBit_two_pow_add_eq, Nat.testBit_lt_two_pow restFits, Nat.add_mod_left,
      Nat.mod_eq_of_lt restFits]
    rfl

theorem eq_of_sign_of_magnitude {a b : Nat} (ha : a < 2 ^ f.width) (hb : b < 2 ^ f.width)
    (sign : f.sign a = f.sign b) (magnitude : f.magnitude a = f.magnitude b) : a = b := by
  rw [← layout.withSign_sign_magnitude ha, sign, magnitude, layout.withSign_sign_magnitude hb]

end FloatFormat.Layout

/-! ### The number of a magnitude -/

/-- The number a magnitude stands for. It goes on above the infinities as if the exponent had no
bound, so that rounding can be stated before the overflow. -/
def FloatFormat.magnitudeValue (f : FloatFormat) (mag : Nat) : ℚ :=
  (mag - (mag / f.binade - 1) * f.binade : Nat) * 2 ^ (f.minExp + (mag / f.binade - 1 : Nat))

/-- `j` is a significand at the place `place` above the least one: with the hidden bit unless the
place is the least. The top `2 * binade` is a carry out of the significand. -/
structure FloatFormat.IsPlace (f : FloatFormat) (place j : Nat) : Prop where
  normal : place = 0 ∨ f.binade ≤ j
  atMost : j ≤ 2 * f.binade

theorem FloatFormat.magnitudeValue_place {f : FloatFormat} {place j : Nat}
    (isPlace : f.IsPlace place j) :
    f.magnitudeValue (place * f.binade + j) = j * 2 ^ (f.minExp + place) := by
  obtain ⟨normal, atMost⟩ := isPlace
  have positive := f.binade_pos
  have field : (place * f.binade + j) / f.binade = place + j / f.binade := by
    rw [mul_comm, Nat.mul_add_div positive]
  rw [FloatFormat.magnitudeValue, field]
  rcases lt_or_ge j f.binade with low | high
  · obtain rfl : place = 0 := by omega
    simp [Nat.div_eq_of_lt low]
  rcases atMost.lt_or_eq with inside | rfl
  · have one : j / f.binade = 1 := by
      rw [Nat.div_eq_iff positive]
      omega
    simp [one]
  · have carried : place * f.binade + 2 * f.binade - (place + 2 - 1) * f.binade = f.binade := by
      rw [← add_mul, ← Nat.sub_mul]
      simp
    have next : f.minExp + ((place + 2 - 1 : Nat) : Int) = f.minExp + place + 1 := by omega
    rw [Nat.mul_div_cancel _ positive, carried, next, zpow_add_one₀ two_ne_zero]
    push_cast
    ring

/-- Every magnitude has its place, with no carry. -/
theorem FloatFormat.exists_place (f : FloatFormat) (mag : Nat) :
    ∃ place j, (place = 0 ∨ f.binade ≤ j) ∧ j < 2 * f.binade ∧ mag = place * f.binade + j := by
  have positive := f.binade_pos
  have split := Nat.div_add_mod' mag f.binade
  have low := Nat.mod_lt mag positive
  cases field : mag / f.binade with
  | zero =>
    rw [field] at split
    exact ⟨0, mag % f.binade, .inl rfl, by omega, by omega⟩
  | succ place =>
    rw [field, add_one_mul] at split
    exact ⟨place, f.binade + mag % f.binade, .inr (by omega), by omega, by omega⟩

theorem FloatFormat.magnitudeValue_strictMono (f : FloatFormat) : StrictMono f.magnitudeValue := by
  refine strictMono_nat_of_lt_succ fun mag => ?_
  obtain ⟨place, j, normal, inside, rfl⟩ := f.exists_place mag
  rw [add_assoc, magnitudeValue_place ⟨normal, inside.le⟩,
    magnitudeValue_place ⟨by omega, by omega⟩]
  gcongr
  simp

@[simp] theorem FloatFormat.magnitudeValue_zero (f : FloatFormat) : f.magnitudeValue 0 = 0 := by
  simp [FloatFormat.magnitudeValue]

theorem FloatFormat.magnitudeValue_nonneg (f : FloatFormat) (mag : Nat) :
    0 ≤ f.magnitudeValue mag :=
  mul_nonneg (Nat.cast_nonneg _) (by positivity)

theorem FloatFormat.value_eq (f : FloatFormat) (bits : Nat) :
    f.value bits = signFactor (f.sign bits) * (f.significand bits * 2 ^ f.exponent bits) :=
  mul_assoc ..

namespace FloatFormat.Layout

variable {f : FloatFormat} (layout : f.Layout)
include layout

theorem fraction_eq (bits : Nat) : f.fraction bits = f.magnitude bits % f.binade := by
  have divides : f.binade ∣ 2 ^ (f.width - 1) := layout.fields ▸ Nat.dvd_mul_left ..
  exact (Nat.mod_mod_of_dvd bits divides).symm

theorem significand_eq (bits : Nat) :
    f.significand bits =
      f.magnitude bits - (f.magnitude bits / f.binade - 1) * f.binade := by
  have split := Nat.div_add_mod' (f.magnitude bits) f.binade
  rw [FloatFormat.significand, layout.fraction_eq]
  change (if f.magnitude bits / f.binade = 0 then _ else f.binade + _) = _
  cases field : f.magnitude bits / f.binade with
  | zero =>
    rw [field] at split
    simp only [if_true]
    omega
  | succ e =>
    rw [field, add_one_mul] at split
    rw [if_neg e.succ_ne_zero, Nat.add_sub_cancel]
    omega

theorem significand_mul_exponent (bits : Nat) :
    (f.significand bits * 2 ^ f.exponent bits : ℚ) = f.magnitudeValue (f.magnitude bits) := by
  have field : max (f.expField bits) 1 - 1 = f.magnitude bits / f.binade - 1 := by
    change max (f.magnitude bits / f.binade) 1 - 1 = _
    omega
  rw [layout.significand_eq, FloatFormat.exponent, field, FloatFormat.magnitudeValue]

theorem value_eq_magnitudeValue (bits : Nat) :
    f.value bits = signFactor (f.sign bits) * f.magnitudeValue (f.magnitude bits) := by
  rw [FloatFormat.value_eq, layout.significand_mul_exponent]

theorem abs_value (bits : Nat) : |f.value bits| = f.magnitudeValue (f.magnitude bits) := by
  rw [layout.value_eq_magnitudeValue, abs_signFactor_mul, abs_of_nonneg (f.magnitudeValue_nonneg _)]

theorem value_withSign {mag : Nat} (fits : mag < 2 ^ (f.width - 1)) (b : Bool) :
    f.value (f.withSign b mag) = signFactor b * f.magnitudeValue mag := by
  rw [layout.value_eq_magnitudeValue, sign_withSign fits, magnitude_withSign fits]

/-- The significand is even where the magnitude is: the hidden bit and the exponent field are. -/
theorem significand_mod_two (bits : Nat) : f.significand bits % 2 = f.magnitude bits % 2 := by
  have even := layout.binade_even
  have split := Nat.div_add_mod' (f.magnitude bits) f.binade
  have parity : (f.magnitude bits / f.binade - 1) * f.binade % 2 = 0 := by
    rw [Nat.mul_mod, even, mul_zero, Nat.zero_mod]
  have below : (f.magnitude bits / f.binade - 1) * f.binade ≤ f.magnitude bits :=
    (Nat.mul_le_mul_right _ (Nat.sub_le ..)).trans (Nat.div_mul_le_self ..)
  rw [layout.significand_eq]
  omega

/-- Two patterns of one sign and one number are the same. -/
theorem eq_of_sign_of_value {a b : Nat} (ha : a < 2 ^ f.width) (hb : b < 2 ^ f.width)
    (sign : f.sign a = f.sign b) (value : f.value a = f.value b) : a = b := by
  refine layout.eq_of_sign_of_magnitude ha hb sign (f.magnitudeValue_strictMono.injective ?_)
  rw [← layout.abs_value, value, layout.abs_value]

end FloatFormat.Layout

end Sys2Proof.Machine

/-! ### Rounding to nearest, ties to even (42_value_types.md R192) -/

namespace Sys2Proof.Machine

/-! ### Rounding to an integer -/

/-- `j` is the integer nearest to `y`, the even one of two. -/
structure RoundsToInteger (y : ℚ) (j : Nat) : Prop where
  near : |(j : ℚ) - y| ≤ 1 / 2
  tiesToEven : |(j : ℚ) - y| = 1 / 2 → j % 2 = 0

theorem RoundsToInteger.self (j : Nat) : RoundsToInteger j j where
  near := by norm_num
  tiesToEven := by norm_num

theorem roundQuotient_rounds (m : Nat) {d : Nat} (positive : 0 < d) :
    RoundsToInteger (m / d) (roundQuotient m d) := by
  have cast : (0 : ℚ) < d := by exact_mod_cast positive
  have split : (m / d : ℚ) = (m / d : Nat) + (m % d : Nat) / d := by
    rw [div_eq_iff cast.ne', add_mul, div_mul_cancel₀ _ cast.ne']
    exact_mod_cast (Nat.div_add_mod' m d).symm
  rw [split, roundQuotient]
  split
  case isTrue less =>
    have small : ((m % d : Nat) / d : ℚ) < 1 / 2 := by
      rw [div_lt_div_iff₀ cast two_pos]
      exact_mod_cast (by omega : m % d * 2 < 1 * d)
    have distance : |((m / d : Nat) : ℚ) - ((m / d : Nat) + (m % d : Nat) / d)| =
        (m % d : Nat) / d := by
      rw [sub_add_cancel_left, abs_neg, abs_of_nonneg (by positivity)]
    exact ⟨by rw [distance]; exact small.le, fun tie => absurd (distance ▸ tie) small.ne⟩
  split
  case isTrue more =>
    have large : (1 : ℚ) / 2 < (m % d : Nat) / d := by
      rw [div_lt_div_iff₀ two_pos cast]
      exact_mod_cast (by omega : 1 * d < m % d * 2)
    have below : ((m % d : Nat) / d : ℚ) < 1 := by
      rw [div_lt_one cast]
      exact_mod_cast Nat.mod_lt m positive
    have distance : |((m / d + 1 : Nat) : ℚ) - ((m / d : Nat) + (m % d : Nat) / d)| =
        1 - (m % d : Nat) / d := by
      rw [Nat.cast_add_one, add_sub_add_left_eq_sub, abs_of_nonneg (by linarith)]
    exact ⟨by rw [distance]; linarith, fun tie => by rw [distance] at tie; linarith⟩
  case isFalse notLess notMore =>
    have half : ((m % d : Nat) / d : ℚ) = 1 / 2 := by
      rw [div_eq_div_iff cast.ne' two_ne_zero]
      exact_mod_cast (by omega : m % d * 2 = 1 * d)
    rw [half]
    refine ⟨?_, fun _ => by omega⟩
    rcases Nat.mod_two_eq_zero_or_one (m / d) with even | odd
    · rw [even]
      norm_num
    · rw [odd]
      norm_num

theorem roundScaled_eq_of_nonneg (m : Nat) {e : Int} (whole : 0 ≤ e) :
    (roundScaled m e : ℚ) = m * 2 ^ e := by
  obtain ⟨n, rfl⟩ := Int.eq_ofNat_of_zero_le whole
  simp [roundScaled]

theorem roundScaled_rounds (m : Nat) (e : Int) : RoundsToInteger (m * 2 ^ e) (roundScaled m e) := by
  by_cases whole : 0 ≤ e
  · rw [← roundScaled_eq_of_nonneg m whole]
    exact .self _
  · obtain ⟨n, rfl⟩ := Int.exists_eq_neg_ofNat (not_le.1 whole).le
    have quotient : (m * 2 ^ (-(n : Int)) : ℚ) = m / (2 ^ n : Nat) := by
      rw [zpow_neg, zpow_natCast, Nat.cast_pow, Nat.cast_ofNat, div_eq_mul_inv]
    rw [quotient, roundScaled, if_neg whole, neg_neg, Int.toNat_natCast]
    exact roundQuotient_rounds m (Nat.two_pow_pos n)

/-! ### Rounding to a magnitude, before the overflow -/

/-- `r` is the magnitude nearest to `x`, the even one of two. -/
structure FloatFormat.NearestEven (f : FloatFormat) (x : ℚ) (r : Nat) : Prop where
  nearest : ∀ k, |f.magnitudeValue r - x| ≤ |f.magnitudeValue k - x|
  tiesToEven : ∀ k, k ≠ r → |f.magnitudeValue k - x| = |f.magnitudeValue r - x| → r % 2 = 0

/-- It is enough to know on which side of each midpoint `x` lies. -/
theorem FloatFormat.NearestEven.of_midpoints {f : FloatFormat} {x : ℚ} {r : Nat}
    (below : ∀ k < r, f.magnitudeValue k + f.magnitudeValue r ≤ 2 * x ∧
      (f.magnitudeValue k + f.magnitudeValue r = 2 * x → r % 2 = 0))
    (above : ∀ k > r, 2 * x ≤ f.magnitudeValue r + f.magnitudeValue k ∧
      (f.magnitudeValue r + f.magnitudeValue k = 2 * x → r % 2 = 0)) : f.NearestEven x r where
  nearest k := by
    rcases lt_trichotomy k r with less | rfl | more
    · exact (abs_upper_le_iff (f.magnitudeValue_strictMono less)).2 (below k less).1
    · exact le_rfl
    · exact (abs_lower_le_iff (f.magnitudeValue_strictMono more)).2 (above k more).1
  tiesToEven k other tie := by
    rcases Nat.lt_or_gt_of_ne other with less | more
    · have upper := (abs_lower_le_iff (f.magnitudeValue_strictMono less)).1 tie.le
      exact (below k less).2 ((below k less).1.antisymm upper)
    · have lower := (abs_upper_le_iff (f.magnitudeValue_strictMono more)).1 tie.le
      exact (above k more).2 (lower.antisymm (above k more).1)

section Place

variable {f : FloatFormat} {place j : Nat} {y : ℚ}

/-- Rounding `y` in units of a place keeps the significand at that place, but for a carry. -/
theorem FloatFormat.isPlace_of_rounds (rounds : RoundsToInteger y j)
    (normal : place = 0 ∨ (f.binade : ℚ) ≤ y) (inside : y < 2 * f.binade) : f.IsPlace place j := by
  obtain ⟨low, high⟩ := abs_le.1 rounds.near
  constructor
  · refine normal.imp_right fun least => ?_
    have bound : (f.binade : ℚ) < (j + 1 : Nat) := by
      push_cast
      linarith
    have := Nat.cast_lt.1 bound
    omega
  · have bound : (j : ℚ) < (2 * f.binade + 1 : Nat) := by
      push_cast
      linarith
    have := Nat.cast_lt.1 bound
    omega

/-- At the bottom of a binade the magnitude below is nearer than one unit of the place, but then `y`
is not below `j`. -/
theorem FloatFormat.midpoint_below (rounds : RoundsToInteger y j)
    (normal : place = 0 ∨ (f.binade : ℚ) ≤ y) (inside : y < 2 * f.binade) {k : Nat}
    (less : k < place * f.binade + j) :
    f.magnitudeValue k + f.magnitudeValue (place * f.binade + j) ≤
        2 * (y * 2 ^ (f.minExp + place)) ∧
      (f.magnitudeValue k + f.magnitudeValue (place * f.binade + j) =
        2 * (y * 2 ^ (f.minExp + place)) → j % 2 = 0) := by
  have isPlace := isPlace_of_rounds rounds normal inside
  have unit : (0 : ℚ) < 2 ^ (f.minExp + place) := by positivity
  by_cases notBelow : (j : ℚ) ≤ y
  · have smaller := f.magnitudeValue_strictMono less
    have scaled := mul_le_mul_of_nonneg_right notBelow unit.le
    rw [magnitudeValue_place isPlace] at smaller ⊢
    exact ⟨by linarith, fun tie => by linarith⟩
  have hidden : place = 0 ∨ f.binade < j :=
    normal.imp_right fun least => by exact_mod_cast least.trans_lt (not_le.1 notBelow)
  obtain ⟨i, rfl⟩ : ∃ i, j = i + 1 := by
    refine Nat.exists_eq_add_one.2 (Nat.pos_of_ne_zero ?_)
    rintro rfl
    obtain rfl : place = 0 := by omega
    omega
  have neighbour : f.IsPlace place i := ⟨by omega, by have := isPlace.atMost; omega⟩
  have smaller : f.magnitudeValue k ≤ i * 2 ^ (f.minExp + place) := by
    rw [← magnitudeValue_place neighbour]
    exact f.magnitudeValue_strictMono.monotone (by omega)
  rw [magnitudeValue_place isPlace]
  obtain ⟨-, high⟩ := abs_le.1 rounds.near
  push_cast at high ⊢
  have scaled : (i + 1 / 2 : ℚ) * 2 ^ (f.minExp + place) ≤ y * 2 ^ (f.minExp + place) :=
    mul_le_mul_of_nonneg_right (by linarith) unit.le
  refine ⟨by linarith, fun tie => rounds.tiesToEven ?_⟩
  have halfway : y ≤ i + 1 / 2 := le_of_mul_le_mul_right (by linarith) unit
  push_cast
  rw [abs_of_nonneg (by linarith)]
  linarith

theorem FloatFormat.midpoint_above (rounds : RoundsToInteger y j)
    (normal : place = 0 ∨ (f.binade : ℚ) ≤ y) (inside : y < 2 * f.binade) {k : Nat}
    (more : place * f.binade + j < k) :
    2 * (y * 2 ^ (f.minExp + place)) ≤
        f.magnitudeValue (place * f.binade + j) + f.magnitudeValue k ∧
      (f.magnitudeValue (place * f.binade + j) + f.magnitudeValue k =
        2 * (y * 2 ^ (f.minExp + place)) → j % 2 = 0) := by
  have isPlace := isPlace_of_rounds rounds normal inside
  have unit : (0 : ℚ) < 2 ^ (f.minExp + place) := by positivity
  by_cases notAbove : y ≤ j
  · have larger := f.magnitudeValue_strictMono more
    have scaled := mul_le_mul_of_nonneg_right notAbove unit.le
    rw [magnitudeValue_place isPlace] at larger ⊢
    exact ⟨by linarith, fun tie => by linarith⟩
  have noCarry : j < 2 * f.binade := by exact_mod_cast (not_le.1 notAbove).trans inside
  have neighbour : f.IsPlace place (j + 1) := ⟨by have := isPlace.normal; omega, noCarry⟩
  have larger : ((j + 1 : Nat) : ℚ) * 2 ^ (f.minExp + place) ≤ f.magnitudeValue k := by
    rw [← magnitudeValue_place neighbour]
    exact f.magnitudeValue_strictMono.monotone (by omega)
  rw [magnitudeValue_place isPlace]
  obtain ⟨low, -⟩ := abs_le.1 rounds.near
  push_cast at larger
  have scaled : y * 2 ^ (f.minExp + place) ≤ (j + 1 / 2 : ℚ) * 2 ^ (f.minExp + place) :=
    mul_le_mul_of_nonneg_right (by linarith) unit.le
  refine ⟨by linarith, fun tie => rounds.tiesToEven ?_⟩
  have halfway : j + 1 / 2 ≤ y := le_of_mul_le_mul_right (by linarith) unit
  rw [abs_of_nonpos (by linarith)]
  linarith

theorem FloatFormat.nearestEven_of_rounds (layout : f.Layout) (rounds : RoundsToInteger y j)
    (normal : place = 0 ∨ (f.binade : ℚ) ≤ y) (inside : y < 2 * f.binade) :
    f.NearestEven (y * 2 ^ (f.minExp + place)) (place * f.binade + j) := by
  have parity : (place * f.binade + j) % 2 = j % 2 := by
    rw [Nat.add_mod, Nat.mul_mod, layout.binade_even, mul_zero, Nat.zero_mod, zero_add, Nat.mod_mod]
  refine .of_midpoints (fun k less => ?_) (fun k more => ?_) <;> rw [parity]
  · exact midpoint_below rounds normal inside less
  · exact midpoint_above rounds normal inside more

end Place

/-! ### The rounding of the conversions -/

/-- The magnitude `FloatFormat.roundMagnitude` cuts at the infinity. -/
def FloatFormat.unboundedRound (f : FloatFormat) (m : Nat) (e : Int) : Nat :=
  (f.lastPlace m e - f.minExp).toNat * f.binade + roundScaled m (e - f.lastPlace m e)

theorem FloatFormat.roundMagnitude_zero (f : FloatFormat) (e : Int) : f.roundMagnitude 0 e = 0 :=
  if_pos rfl

theorem FloatFormat.roundMagnitude_eq (f : FloatFormat) {m : Nat} (positive : m ≠ 0) (e : Int) :
    f.roundMagnitude m e = min (f.unboundedRound m e) f.infinity := if_neg positive

theorem FloatFormat.lastPlace_eq (f : FloatFormat) (m : Nat) (e : Int) :
    f.lastPlace m e = f.minExp + (f.lastPlace m e - f.minExp).toNat := by
  have least : f.minExp ≤ f.lastPlace m e := le_max_right ..
  omega

/-- In units of the last place a number has at most `precision` bits before the point. -/
theorem FloatFormat.scaled_lt (f : FloatFormat) (m : Nat) (e : Int) :
    (m * 2 ^ (e - f.lastPlace m e) : ℚ) < 2 * f.binade := by
  have place : e + m.log2 - (f.precision - 1 : Nat) ≤ f.lastPlace m e := le_max_left ..
  have leading : (m : ℚ) < 2 ^ (m.log2 + 1) := by exact_mod_cast Nat.lt_log2_self
  calc (m * 2 ^ (e - f.lastPlace m e) : ℚ)
      < 2 ^ (m.log2 + 1) * 2 ^ (e - f.lastPlace m e) := by gcongr
    _ = 2 ^ ((m.log2 + 1 : Nat) + (e - f.lastPlace m e)) := by
        rw [zpow_add₀ two_ne_zero, zpow_natCast]
    _ ≤ 2 ^ ((1 + (f.precision - 1) : Nat) : Int) := by
        apply zpow_le_zpow_right₀ one_le_two
        push_cast
        omega
    _ = 2 * f.binade := by
        rw [zpow_natCast, pow_add, pow_one, FloatFormat.binade, Nat.cast_pow, Nat.cast_ofNat]

/-- Above the least place it has exactly as many. -/
theorem FloatFormat.le_scaled (f : FloatFormat) {m : Nat} (positive : m ≠ 0) (e : Int) :
    (f.lastPlace m e - f.minExp).toNat = 0 ∨
      (f.binade : ℚ) ≤ m * 2 ^ (e - f.lastPlace m e) := by
  rcases max_choice (e + m.log2 - (f.precision - 1 : Nat)) f.minExp with place | place
  · right
    have leading : ((2 : ℚ) ^ m.log2) ≤ m := by exact_mod_cast Nat.log2_self_le positive
    calc (f.binade : ℚ) = 2 ^ ((f.precision - 1 : Nat) : Int) := by
          rw [zpow_natCast, FloatFormat.binade, Nat.cast_pow, Nat.cast_ofNat]
      _ = 2 ^ ((m.log2 : Int) + (e - f.lastPlace m e)) := by
          rw [FloatFormat.lastPlace, place]
          congr 1
          omega
      _ = 2 ^ m.log2 * 2 ^ (e - f.lastPlace m e) := by rw [zpow_add₀ two_ne_zero, zpow_natCast]
      _ ≤ m * 2 ^ (e - f.lastPlace m e) := by gcongr
  · left
    rw [FloatFormat.lastPlace, place, sub_self, Int.toNat_zero]

theorem FloatFormat.unboundedRound_nearest {f : FloatFormat} (layout : f.Layout) {m : Nat}
    (positive : m ≠ 0) (e : Int) : f.NearestEven (m * 2 ^ e) (f.unboundedRound m e) := by
  have near := nearestEven_of_rounds layout (roundScaled_rounds m (e - f.lastPlace m e))
    (f.le_scaled positive e) (f.scaled_lt m e)
  rwa [← lastPlace_eq, mul_assoc, ← zpow_add₀ two_ne_zero, sub_add_cancel] at near

theorem FloatFormat.magnitudeValue_unboundedRound {f : FloatFormat} {m : Nat} (positive : m ≠ 0)
    {e : Int} (whole : f.lastPlace m e ≤ e) :
    f.magnitudeValue (f.unboundedRound m e) = m * 2 ^ e := by
  have isPlace := isPlace_of_rounds (roundScaled_rounds m (e - f.lastPlace m e))
    (f.le_scaled positive e) (f.scaled_lt m e)
  rw [FloatFormat.unboundedRound, magnitudeValue_place isPlace, ← lastPlace_eq,
    roundScaled_eq_of_nonneg m (by omega), mul_assoc, ← zpow_add₀ two_ne_zero, sub_add_cancel]

/-! ### Overflow -/

/-- Halfway between the greatest finite magnitude and the next one (42_value_types.md R192). -/
def FloatFormat.threshold (f : FloatFormat) : ℚ :=
  (f.magnitudeValue (f.infinity - 1) + f.magnitudeValue f.infinity) / 2

theorem FloatFormat.magnitudeValue_lt_threshold {f : FloatFormat} {mag : Nat}
    (finite : mag < f.infinity) : f.magnitudeValue mag < f.threshold := by
  have greatest : f.magnitudeValue mag ≤ f.magnitudeValue (f.infinity - 1) :=
    f.magnitudeValue_strictMono.monotone (by omega)
  have next : f.magnitudeValue (f.infinity - 1) < f.magnitudeValue f.infinity :=
    f.magnitudeValue_strictMono (by omega)
  rw [FloatFormat.threshold]
  linarith

/-- The tie at the threshold goes to the infinity, whose magnitude is the even one. -/
theorem FloatFormat.NearestEven.lt_infinity_iff {f : FloatFormat} (layout : f.Layout) {x : ℚ}
    {r : Nat} (near : f.NearestEven x r) : r < f.infinity ↔ x < f.threshold := by
  have even := layout.infinity_even
  have positive := layout.infinity_pos
  rw [FloatFormat.threshold, lt_div_iff₀ two_pos, mul_comm]
  constructor
  · intro finite
    have upper := (abs_lower_le_iff (f.magnitudeValue_strictMono finite)).1 (near.nearest _)
    have greatest : f.magnitudeValue r ≤ f.magnitudeValue (f.infinity - 1) :=
      f.magnitudeValue_strictMono.monotone (by omega)
    refine lt_of_le_of_ne (by linarith) fun tie => ?_
    obtain rfl : r = f.infinity - 1 := f.magnitudeValue_strictMono.injective (by linarith)
    have lower := (abs_upper_le_iff (f.magnitudeValue_strictMono finite)).2 tie.ge
    have := near.tiesToEven f.infinity (by omega) (lower.antisymm (near.nearest _))
    omega
  · intro below
    by_contra infinite
    have above : f.magnitudeValue f.infinity ≤ f.magnitudeValue r :=
      f.magnitudeValue_strictMono.monotone (by omega)
    have lower := (abs_upper_le_iff (f.magnitudeValue_strictMono (by omega))).1
      (near.nearest (f.infinity - 1))
    linarith

section RoundMagnitude

variable {f : FloatFormat} (layout : f.Layout) {m : Nat} {e : Int}
include layout

theorem FloatFormat.roundMagnitude_nearest (below : (m * 2 ^ e : ℚ) < f.threshold) :
    f.NearestEven (m * 2 ^ e) (f.roundMagnitude m e) ∧ f.roundMagnitude m e < f.infinity := by
  by_cases positive : m = 0
  · subst positive
    rw [roundMagnitude_zero]
    refine ⟨⟨fun k => ?_, fun _ _ _ => rfl⟩, layout.infinity_pos⟩
    simp
  · have near := unboundedRound_nearest layout positive e
    have finite := (near.lt_infinity_iff layout).2 below
    rw [roundMagnitude_eq f positive, min_eq_left finite.le]
    exact ⟨near, finite⟩

/-- A number with no bit below the last place is kept. -/
theorem FloatFormat.magnitudeValue_roundMagnitude (below : (m * 2 ^ e : ℚ) < f.threshold)
    (whole : f.lastPlace m e ≤ e) : f.magnitudeValue (f.roundMagnitude m e) = m * 2 ^ e := by
  by_cases positive : m = 0
  · subst positive
    rw [roundMagnitude_zero, magnitudeValue_zero, Nat.cast_zero, zero_mul]
  · have finite := ((unboundedRound_nearest layout positive e).lt_infinity_iff layout).2 below
    rw [roundMagnitude_eq f positive, min_eq_left finite.le,
      magnitudeValue_unboundedRound positive whole]

theorem FloatFormat.roundMagnitude_overflows (above : f.threshold ≤ (m * 2 ^ e : ℚ)) :
    f.roundMagnitude m e = f.infinity := by
  have positive : m ≠ 0 := by
    rintro rfl
    have := f.magnitudeValue_zero ▸ magnitudeValue_lt_threshold layout.infinity_pos
    simp at above
    linarith
  have near := unboundedRound_nearest layout positive e
  rw [roundMagnitude_eq f positive, min_eq_right]
  exact not_lt.1 (mt (near.lt_infinity_iff layout).1 above.not_gt)

end RoundMagnitude

/-! ### The rounding rule with a sign -/

/-- The magnitude decides: a pattern of the other sign is at least as far as zero is. -/
theorem FloatFormat.NearestEven.roundsTo {f : FloatFormat} (layout : f.Layout) {x : ℚ} {r : Nat}
    (near : f.NearestEven x r) (nonneg : 0 ≤ x) (finite : r < f.infinity) (b : Bool) :
    f.RoundsTo (signFactor b * x) (f.withSign b r) := by
  have fits := finite.trans layout.infinity_lt
  have toZero : |f.magnitudeValue r - x| ≤ x := by
    have := near.nearest 0
    rwa [magnitudeValue_zero, zero_sub, abs_neg, abs_of_nonneg nonneg] at this
  have own : |f.value (f.withSign b r) - signFactor b * x| = |f.magnitudeValue r - x| := by
    rw [layout.value_withSign fits, abs_signFactor_sub_same]
  refine ⟨layout.withSign_lt fits b, ?_, fun y _ _ => ?_, fun y _ _ differ tie => ?_⟩
  · rw [FloatFormat.isFinite, magnitude_withSign fits]
    exact decide_eq_true finite
  all_goals have nonnegY := f.magnitudeValue_nonneg (f.magnitude y)
  · rw [own, layout.value_eq_magnitudeValue]
    by_cases sign : f.sign y = b
    · rw [sign, abs_signFactor_sub_same]
      exact near.nearest _
    · rw [abs_signFactor_sub_other sign nonnegY nonneg]
      linarith
  · rw [layout.significand_mod_two, magnitude_withSign fits]
    rw [own] at tie
    rw [layout.value_withSign fits] at differ
    rw [layout.value_eq_magnitudeValue] at tie differ
    by_cases sign : f.sign y = b
    · rw [sign, abs_signFactor_sub_same] at tie
      refine near.tiesToEven (f.magnitude y) (fun same => differ ?_) tie
      rw [sign, same]
    · rw [abs_signFactor_sub_other sign nonnegY nonneg] at tie
      have zero : f.magnitudeValue (f.magnitude y) = 0 := by linarith
      rw [zero, mul_zero] at differ
      rw [zero, zero_add] at tie
      refine near.tiesToEven 0 (fun same => differ ?_) ?_
      · rw [← same, magnitudeValue_zero, mul_zero]
      · rwa [magnitudeValue_zero, zero_sub, abs_neg, abs_of_nonneg nonneg]

end Sys2Proof.Machine

/-! ### Conversions from and to floats (42_value_types.md R208, R216 to R223, R228) -/

namespace Sys2Proof.Machine

/-! ### What a pattern is -/

section Classes

variable {f : FloatFormat} {bits : Nat}

theorem FloatFormat.isFinite_iff : f.isFinite bits = true ↔ f.magnitude bits < f.infinity := by
  simp [FloatFormat.isFinite]

theorem FloatFormat.isInf_iff : f.isInf bits = true ↔ f.magnitude bits = f.infinity := by
  simp [FloatFormat.isInf]

theorem FloatFormat.isNaN_iff : f.isNaN bits = true ↔ f.infinity < f.magnitude bits := by
  simp [FloatFormat.isNaN]

theorem FloatFormat.isFinite_or_isInf (noNaN : f.isNaN bits = false) :
    f.isFinite bits = true ∨ f.isInf bits = true := by
  rw [Bool.eq_false_iff, ne_eq, isNaN_iff] at noNaN
  rw [isFinite_iff, isInf_iff]
  omega

theorem FloatFormat.isNaN_of_isFinite (finite : f.isFinite bits = true) : f.isNaN bits = false := by
  rw [isFinite_iff] at finite
  rw [Bool.eq_false_iff, ne_eq, isNaN_iff]
  omega

theorem FloatFormat.not_isInf_of_isFinite (finite : f.isFinite bits = true) :
    ¬ f.isInf bits = true := by
  rw [isFinite_iff] at finite
  rw [isInf_iff]
  omega

theorem FloatFormat.isNaN_of_isInf (infinite : f.isInf bits = true) : f.isNaN bits = false := by
  rw [isInf_iff] at infinite
  rw [Bool.eq_false_iff, ne_eq, isNaN_iff]
  omega

end Classes

/-! ### The cases of a float-to-float conversion -/

section Convert

variable {src : FloatFormat} (dst : FloatFormat) {bits : Nat} (s : State)

theorem FloatFormat.convert_of_isNaN (nan : src.isNaN bits = true) :
    src.convert dst bits s =
      (s.draw, BitVec.ofNat 64 (dst.nanOf (Config.nanConv s.draws).toNat)) := if_pos nan

theorem FloatFormat.convert_of_isInf (infinite : src.isInf bits = true) :
    src.convert dst bits s =
      (s, BitVec.ofNat 64 (dst.withSign (src.sign bits) dst.infinity)) := by
  rw [FloatFormat.convert, isNaN_of_isInf infinite, infinite]
  rfl

theorem FloatFormat.convert_of_isFinite (finite : src.isFinite bits = true) :
    src.convert dst bits s =
      (s, BitVec.ofNat 64 (dst.withSign (src.sign bits)
        (dst.roundMagnitude (src.significand bits) (src.exponent bits)))) := by
  rw [FloatFormat.convert, isNaN_of_isFinite finite,
    Bool.eq_false_iff.2 (not_isInf_of_isFinite finite)]
  rfl

end Convert

theorem exec_upcast_float32 (p : Word) (s : State) :
    exec (.upcast (.kind .float32) p) s =
      (binary32.convert binary64 (p.toNat % 2 ^ 32) s).1.returnValue .float64
        (binary32.convert binary64 (p.toNat % 2 ^ 32) s).2 := by
  rw [← toNat_zeroExtended (by norm_num : 32 ≤ 64)]
  rfl

theorem exec_downcast_float64_float32 (p : Word) (s : State) :
    exec (.downcast (.kind .float64) p (.kind .float32)) s =
      (binary64.convert binary32 p.toNat s).1.returnValue .float32
        (binary64.convert binary32 p.toNat s).2 := rfl

/-! ### NaN operands (R193) -/

/-- Whatever the raw bits, the fraction is not zero and stays below the next exponent field. -/
theorem FloatFormat.Layout.nanOf_isNaN {f : FloatFormat} (layout : f.Layout) (raw : Nat) :
    f.nanOf raw < 2 ^ f.width ∧ f.isNaN (f.nanOf raw) = true := by
  have hidden := layout.hiddenBit
  have top := layout.infinity_add_binade
  have fraction : f.fraction raw < f.binade := Nat.mod_lt _ f.binade_pos
  have quiet : 2 ^ (f.precision - 2) < f.binade := Nat.pow_lt_pow_right one_lt_two (by omega)
  have positive : 0 < 2 ^ (f.precision - 2) := Nat.two_pow_pos _
  obtain ⟨mag, above, below, nan⟩ : ∃ mag, f.infinity < mag ∧ mag < 2 ^ (f.width - 1) ∧
      f.nanOf raw = f.withSign (f.sign raw) mag :=
    ⟨_, by split <;> omega, by split <;> omega, rfl⟩
  rw [nan, FloatFormat.isNaN_iff, magnitude_withSign below]
  exact ⟨layout.withSign_lt below _, above⟩

/-- Settles O45. -/
theorem naNConvertsToSomeNaN : Obligations.NaNConvertsToSomeNaN := by
  intro s p
  refine ⟨fun nan => ⟨binary64.nanOf (Config.nanConv s.draws).toNat, ?_,
      binary64_layout.nanOf_isNaN _⟩,
    fun nan => ⟨binary32.nanOf (Config.nanConv s.draws).toNat, ?_,
      binary32_layout.nanOf_isNaN _⟩⟩
  · rw [exec_upcast_float32, FloatFormat.convert_of_isNaN binary64 s nan, State.returnValue_eq]
  · rw [exec_downcast_float64_float32, FloatFormat.convert_of_isNaN binary32 s nan,
      State.returnValue_eq]

/-! ### `Float32` to `Float64` (R208) -/

theorem FloatFormat.Layout.significand_lt {f : FloatFormat} (layout : f.Layout) (bits : Nat) :
    f.significand bits < 2 ^ f.precision := by
  have precision : 2 ^ f.precision = f.binade + f.binade := by
    have := layout.hiddenBit
    rw [FloatFormat.binade, Nat.two_pow_pred_add_two_pow_pred (by omega)]
  have fraction : f.fraction bits < f.binade := Nat.mod_lt _ f.binade_pos
  rw [precision, FloatFormat.significand]
  change (if f.expField bits = 0 then f.fraction bits else f.binade + f.fraction bits) < _
  split <;> omega

/-- The significand is narrower and the least exponent greater, so no bit is below the last place. -/
theorem lastPlace_binary64_le_exponent (bits : Nat) :
    binary64.lastPlace (binary32.significand bits) (binary32.exponent bits) ≤
      binary32.exponent bits := by
  have leading : (binary32.significand bits).log2 < 24 := by
    rcases eq_or_ne (binary32.significand bits) 0 with zero | positive
    · rw [zero]
      decide
    · exact (Nat.log2_lt positive).2 (binary32_layout.significand_lt bits)
  have least : (-149 : Int) ≤ binary32.exponent bits := by
    rw [FloatFormat.exponent]
    exact Int.le_add_of_nonneg_right (Int.natCast_nonneg _)
  have precision : binary64.precision - 1 = 52 := rfl
  have place : binary64.minExp = -1074 := rfl
  rw [FloatFormat.lastPlace, precision, place]
  omega

theorem binary32_threshold : binary32.threshold = binary32Threshold := by
  norm_num [FloatFormat.threshold, FloatFormat.magnitudeValue, FloatFormat.binade,
    FloatFormat.infinity, binary32, binary32Threshold]

/-- `2^128`, the pattern of exponent field `1023 + 128` and fraction 0, is finite in `Float64`. -/
theorem lt_binary64_threshold : 2 ^ 128 < binary64.threshold := by
  have finite : 1151 * 2 ^ 52 < binary64.infinity := by decide
  have number : binary64.magnitudeValue (1151 * 2 ^ 52) = 2 ^ 128 := by
    norm_num [FloatFormat.magnitudeValue, FloatFormat.binade, binary64]
  rw [← number]
  exact FloatFormat.magnitudeValue_lt_threshold finite

theorem binary32_threshold_le : binary32.threshold ≤ binary64.threshold := by
  refine le_trans ?_ lt_binary64_threshold.le
  rw [binary32_threshold, binary32Threshold]
  norm_num

/-- `Float64` holds every finite `Float32`: neither overflow nor rounding. -/
theorem roundMagnitude_binary64_of_isFinite {bits : Nat} (finite : binary32.isFinite bits = true) :
    binary64.roundMagnitude (binary32.significand bits) (binary32.exponent bits) <
        binary64.infinity ∧
    binary64.magnitudeValue
        (binary64.roundMagnitude (binary32.significand bits) (binary32.exponent bits)) =
      binary32.magnitudeValue (binary32.magnitude bits) := by
  have number := binary32_layout.significand_mul_exponent bits
  have below :
      (binary32.significand bits * 2 ^ binary32.exponent bits : ℚ) < binary64.threshold := by
    rw [number]
    exact (FloatFormat.magnitudeValue_lt_threshold (FloatFormat.isFinite_iff.1 finite)).trans_le
      binary32_threshold_le
  rw [← number]
  exact ⟨(FloatFormat.roundMagnitude_nearest binary64_layout below).2,
    FloatFormat.magnitudeValue_roundMagnitude binary64_layout below
      (lastPlace_binary64_le_exponent bits)⟩

/-- A magnitude of the target gives a pattern of the target, whose sign is the operand's. -/
theorem FloatFormat.Layout.infinity_withSign {f : FloatFormat} (layout : f.Layout) (b : Bool) :
    f.withSign b f.infinity < 2 ^ f.width ∧ f.sign (f.withSign b f.infinity) = b ∧
      f.isInf (f.withSign b f.infinity) = true :=
  ⟨layout.withSign_lt layout.infinity_lt b, sign_withSign layout.infinity_lt b,
    isInf_iff.2 (magnitude_withSign layout.infinity_lt b)⟩

/-- Settles O44. -/
theorem upcastFloat32IsExact : Obligations.UpcastFloat32IsExact := by
  rintro s p f rfl noNaN
  rw [exec_upcast_float32]
  generalize p.toNat % 2 ^ 32 = f at noNaN ⊢
  rcases FloatFormat.isFinite_or_isInf noNaN with finite | infinite
  · obtain ⟨below, number⟩ := roundMagnitude_binary64_of_isFinite finite
    have fits := below.trans binary64_layout.infinity_lt
    rw [FloatFormat.convert_of_isFinite binary64 s finite]
    refine ⟨_, rfl, binary64_layout.withSign_lt fits _, FloatFormat.sign_withSign fits _,
      fun _ => ⟨?_, ?_⟩,
      fun infinite => absurd infinite (FloatFormat.not_isInf_of_isFinite finite)⟩
    · rwa [FloatFormat.isFinite_iff, FloatFormat.magnitude_withSign fits]
    · rw [binary64_layout.value_withSign fits, number, binary32_layout.value_eq_magnitudeValue]
  · obtain ⟨pattern, sign, isInf⟩ := binary64_layout.infinity_withSign (binary32.sign f)
    rw [FloatFormat.convert_of_isInf binary64 s infinite]
    exact ⟨_, rfl, pattern, sign,
      fun finite => absurd infinite (FloatFormat.not_isInf_of_isFinite finite), fun _ => isInf⟩

/-! ### `Float64` to `Float32` (R220) -/

/-- Settles O51: the threshold decides between the nearest magnitude and the infinity. -/
theorem float64ToFloat32RoundsToNearest : Obligations.Float64ToFloat32RoundsToNearest := by
  intro s p noNaN
  rw [exec_downcast_float64_float32, ← binary32_threshold]
  generalize p.toNat = bits at noNaN ⊢
  obtain ⟨pattern, sign, isInf⟩ := binary32_layout.infinity_withSign (binary64.sign bits)
  rcases FloatFormat.isFinite_or_isInf noNaN with finite | infinite
  · have number := binary64_layout.significand_mul_exponent bits
    rw [FloatFormat.convert_of_isFinite binary32 s finite, binary64_layout.abs_value,
      binary64_layout.value_eq_magnitudeValue, ← number]
    rcases lt_or_ge (binary64.significand bits * 2 ^ binary64.exponent bits : ℚ) binary32.threshold
      with below | above
    · obtain ⟨near, small⟩ := FloatFormat.roundMagnitude_nearest binary32_layout below
      have fits := small.trans binary32_layout.infinity_lt
      refine ⟨_, rfl, binary32_layout.withSign_lt fits _, FloatFormat.sign_withSign fits _,
        fun _ _ => near.roundsTo binary32_layout (by positivity) small _, ?_⟩
      rintro (infinite | above)
      · exact absurd infinite (FloatFormat.not_isInf_of_isFinite finite)
      · exact absurd below above.not_gt
    · rw [FloatFormat.roundMagnitude_overflows binary32_layout above]
      exact ⟨_, rfl, pattern, sign, fun _ below => absurd below above.not_gt, fun _ => isInf⟩
  · rw [FloatFormat.convert_of_isInf binary32 s infinite]
    exact ⟨_, rfl, pattern, sign,
      fun finite => absurd infinite (FloatFormat.not_isInf_of_isFinite finite), fun _ => isInf⟩

/-! ### Integers to floats (R216 to R219) -/

theorem format_of_mem_floatKinds {k : Kind} {f : FloatFormat} (float : (k, f) ∈ floatKinds) :
    kindFamily k = .float ∧ floatFormatOf k = f ∧ f.Layout ∧ 2 ^ 64 < f.threshold := by
  simp only [floatKinds, List.mem_cons, Prod.mk.injEq, List.not_mem_nil, or_false] at float
  rcases float with ⟨rfl, rfl⟩ | ⟨rfl, rfl⟩
  · refine ⟨rfl, rfl, binary32_layout, ?_⟩
    rw [binary32_threshold, binary32Threshold]
    norm_num
  · exact ⟨rfl, rfl, binary64_layout, lt_trans (by norm_num) lt_binary64_threshold⟩

theorem exec_downcast_integer_to_float {c : CanonicalKind} {p : Word} {x : Int} {k : Kind}
    {f : FloatFormat} (number : integerOf c p = some x) (float : (k, f) ∈ floatKinds) (s : State) :
    exec (.downcast (.kind (canonicalKind c)) p (.kind k)) s =
      s.returnValue k (BitVec.ofNat 64 (f.roundInt x)) := by
  obtain ⟨family, rfl, -, -⟩ := format_of_mem_floatKinds float
  have other : k ≠ canonicalKind c := by
    rintro rfl
    cases c with
    | uint64 | int64 => cases family
    | float64 => cases number
  rw [exec_downcast_float family other]
  cases c <;> cases number <;> rfl

theorem integerOf_natAbs_le {c : CanonicalKind} {p : Word} {x : Int}
    (number : integerOf c p = some x) : x.natAbs ≤ 2 ^ 64 := by
  cases c with
  | uint64 =>
    cases number
    have := p.isLt
    omega
  | int64 =>
    cases number
    have := p.isLt
    rw [BitVec.toInt_eq_toNat_cond]
    split <;> omega
  | float64 => cases number

theorem signFactor_mul_natAbs (x : Int) : signFactor (decide (x < 0)) * x.natAbs = x := by
  rw [Nat.cast_natAbs, Int.cast_abs]
  rcases lt_or_ge x 0 with negative | nonneg
  · have cast : (x : ℚ) ≤ 0 := by exact_mod_cast negative.le
    simp [signFactor, negative, abs_of_nonpos cast]
  · have cast : (0 : ℚ) ≤ x := by exact_mod_cast nonneg
    simp [signFactor, nonneg, abs_of_nonneg cast]

/-- Settles O50: no 64-bit integer reaches the threshold, so its magnitude is rounded, once. -/
theorem integerToFloatRoundsToNearest : Obligations.IntegerToFloatRoundsToNearest := by
  intro s c p x k f number float
  obtain ⟨-, -, layout, wide⟩ := format_of_mem_floatKinds float
  have below : (x.natAbs * 2 ^ (0 : Int) : ℚ) < f.threshold := by
    rw [zpow_zero, mul_one]
    exact lt_of_le_of_lt (by exact_mod_cast integerOf_natAbs_le number) wide
  obtain ⟨near, finite⟩ := FloatFormat.roundMagnitude_nearest layout below
  have rounds := near.roundsTo layout (by positivity) finite (decide (x < 0))
  rw [zpow_zero, mul_one, signFactor_mul_natAbs] at rounds
  refine ⟨f.roundInt x, exec_downcast_integer_to_float number float s, rounds, ?_⟩
  rintro rfl
  exact f.roundMagnitude_zero 0

end Sys2Proof.Machine

namespace Sys2Proof.Machine

/-! ### Floats to integers (R221, R222) -/

theorem truncRat_signFactor (b : Bool) {x : ℚ} (nonneg : 0 ≤ x) :
    truncRat (signFactor b * x) = if b then -⌊x⌋ else ⌊x⌋ := by
  cases b
  · simp [truncRat, signFactor, nonneg]
  · rcases nonneg.eq_or_lt with rfl | positive
    · simp [truncRat]
    · simp [truncRat, signFactor, positive.not_ge, Int.ceil_neg]

theorem floor_mul_two_zpow (m : Nat) (e : Int) :
    ⌊(m * 2 ^ e : ℚ)⌋ = (if 0 ≤ e then m * 2 ^ e.toNat else m / 2 ^ (-e).toNat : Nat) := by
  split
  case isTrue whole =>
    obtain ⟨n, rfl⟩ := Int.eq_ofNat_of_zero_le whole
    rw [zpow_natCast, Int.toNat_natCast, Int.floor_eq_iff]
    push_cast
    exact ⟨le_rfl, lt_add_one _⟩
  case isFalse fractional =>
    obtain ⟨n, rfl⟩ := Int.exists_eq_neg_ofNat (not_le.1 fractional).le
    rw [zpow_neg, zpow_natCast, neg_neg, Int.toNat_natCast, ← div_eq_mul_inv]
    exact_mod_cast Rat.floor_natCast_div_natCast m (2 ^ n)

theorem FloatFormat.truncate_eq_truncRat (f : FloatFormat) (bits : Nat) :
    f.truncate bits = truncRat (f.value bits) := by
  rw [FloatFormat.value_eq, truncRat_signFactor _ (by positivity), floor_mul_two_zpow]
  rfl

/-- Settles O52. -/
theorem floatToIntegerTruncatesAndWraps : Obligations.FloatToIntegerTruncatesAndWraps := by
  intro s p k w integer finite
  obtain ⟨-, width⟩ := mem_integerKinds_iff.1 integer
  rw [exec_downcast_float64_integer integer, floatToInteger, if_pos finite, width,
    wrapPayload_eq_ofInt (integerKinds_width_le integer), FloatFormat.truncate_eq_truncRat,
    State.returnValue_eq]

/-! ### Upcast, then downcast to the own kind (R228) -/

/-- `Upcast` of `p` of kind `k`, then `Downcast` of its answer to `k`, succeeds with a value that
`good` says something of. -/
def RoundTrips (s : State) (k : Kind) (p : Word) (good : Word → Prop) : Prop :=
  ∃ t u, exec (.upcast (.kind k) p) s = .next t ∧
    exec (.downcast (decodeKindTag t.response.rkind) t.response.res (.kind k)) t = .next u ∧
    u.response.status = 0 ∧ u.response.rkind = k.tag ∧ good u.response.res

/-- The kind `Upcast` answers is the source `Downcast` takes. -/
theorem RoundTrips.of_answers {s s' : State} {k : Kind} {p v : Word} {good : Word → Prop}
    (c : CanonicalKind)
    (up : exec (.upcast (.kind k) p) s =
      .next (s'.respond { okResponse with rkind := (canonicalKind c).tag, res := v }))
    (down : ∀ t, ∃ (t' : State) (w : Word), good w ∧
      exec (.downcast (.kind (canonicalKind c)) v (.kind k)) t =
        .next (t'.respond { okResponse with rkind := k.tag, res := w })) :
    RoundTrips s k p good := by
  obtain ⟨t', w, result, run⟩ :=
    down (s'.respond { okResponse with rkind := (canonicalKind c).tag, res := v })
  have source : decodeKindTag (canonicalKind c).tag = .kind (canonicalKind c) :=
    decodeKindTag_bits (tag := .kind (canonicalKind c)) rfl
  rw [← source] at run
  exact ⟨_, _, up, run, rfl, rfl, result⟩

/-- An integer kind's payload comes back from any number that agrees with it modulo `2^w`. -/
theorem RoundTrips.of_integer {s : State} {k : Kind} {w : Nat} {p v : Word} {x : Int}
    (c : CanonicalKind) (integer : (k, w) ∈ integerKinds)
    (up : exec (.upcast (.kind k) p) s =
      .next (s.respond { okResponse with rkind := (canonicalKind c).tag, res := v }))
    (number : integerOf c v = some x) (agree : x % 2 ^ w = p.toNat) :
    RoundTrips s k p (· = p) := by
  refine .of_answers c up fun t =>
    ⟨t, _, ?_, integerDowncastWraps t c v x k w number integer⟩
  rw [agree, BitVec.ofInt_natCast, BitVec.ofNat_toNat, BitVec.setWidth_eq]

theorem roundTrips_unsigned {k : Kind} {w : Nat} {p : Word} (s : State)
    (unsigned : (k, w) ∈ unsignedKinds) (fits : p.toNat < 2 ^ w) : RoundTrips s k p (· = p) := by
  have integer : (k, w) ∈ integerKinds := List.mem_append_left signedKinds unsigned
  obtain ⟨up, -⟩ := upcastKeepsTheNumber s p
  have answer := up k w unsigned
  rw [Nat.mod_eq_of_lt fits, BitVec.ofNat_toNat, BitVec.setWidth_eq] at answer
  exact .of_integer .uint64 integer answer rfl (by exact_mod_cast Nat.mod_eq_of_lt fits)

/-- Sign extension adds a multiple of `2^w`. -/
theorem toInt_ofInt_bmod_emod {w : Nat} (atMost : w ≤ 64) (u : Nat) :
    (BitVec.ofInt 64 (Int.bmod u (2 ^ w))).toInt % 2 ^ w = u % 2 ^ w := by
  have divides : (2 ^ w : Int) ∣ (2 ^ 64 : Nat) := by
    push_cast
    exact pow_dvd_pow 2 atMost
  have inner := Int.bmod_emod (x := u) (m := 2 ^ w)
  push_cast at inner
  rw [BitVec.toInt_ofInt, ← Int.emod_emod_of_dvd _ divides, Int.bmod_emod,
    Int.emod_emod_of_dvd _ divides]
  exact inner

theorem roundTrips_signed {k : Kind} {w : Nat} {p : Word} (s : State)
    (signed : (k, w) ∈ signedKinds) (fits : p.toNat < 2 ^ w) : RoundTrips s k p (· = p) := by
  have integer : (k, w) ∈ integerKinds := List.mem_append_right unsignedKinds signed
  obtain ⟨-, up, -⟩ := upcastKeepsTheNumber s p
  refine .of_integer .int64 integer (up k w signed) rfl ?_
  rw [toInt_ofInt_bmod_emod (integerKinds_width_le integer)]
  exact_mod_cast Nat.mod_eq_of_lt fits

theorem roundTrips_float64 (s : State) (p : Word) : RoundTrips s .float64 p (· = p) := by
  obtain ⟨-, -, up⟩ := upcastKeepsTheNumber s p
  exact .of_answers .float64 up fun t => ⟨t, p, rfl, downcastToSelfIsIdentity t .float64 p⟩

theorem roundTrips_float32_nan {p : Word} (s : State) (fits : p.toNat < 2 ^ 32)
    (nan : binary32.isNaN p.toNat = true) :
    RoundTrips s .float32 p fun r => binary32.isNaN r.toNat = true := by
  obtain ⟨up, -⟩ := naNConvertsToSomeNaN s p
  rw [Nat.mod_eq_of_lt fits] at up
  obtain ⟨g, answer, gFits, gNaN⟩ := up nan
  refine .of_answers .float64 answer fun t => ?_
  obtain ⟨-, down⟩ := naNConvertsToSomeNaN t (BitVec.ofNat 64 g)
  rw [toNat_ofNat_of_width (k := 8) le_rfl gFits] at down
  obtain ⟨r, answer, rFits, rNaN⟩ := down gNaN
  refine ⟨t.draw, BitVec.ofNat 64 r, ?_, answer⟩
  rwa [toNat_ofNat_of_width (k := 8) le_rfl (rFits.trans (by norm_num))]

/-- The number is kept up (O44) and is its own nearest on the way back (O51). -/
theorem roundTrips_float32 {p : Word} (s : State) (fits : p.toNat < 2 ^ 32)
    (noNaN : binary32.isNaN p.toNat = false) : RoundTrips s .float32 p (· = p) := by
  obtain ⟨g, answer, gFits, gSign, gFinite, gInf⟩ :=
    upcastFloat32IsExact s p p.toNat (Nat.mod_eq_of_lt fits).symm noNaN
  refine .of_answers .float64 answer fun t => ?_
  have down := float64ToFloat32RoundsToNearest t (BitVec.ofNat 64 g)
  rw [toNat_ofNat_of_width (k := 8) le_rfl gFits] at down
  rcases FloatFormat.isFinite_or_isInf noNaN with finite | infinite
  · obtain ⟨gFinite, gValue⟩ := gFinite finite
    obtain ⟨r, answer, rFits, rSign, nearest, -⟩ := down (FloatFormat.isNaN_of_isFinite gFinite)
    have below : |binary64.value g| < binary32Threshold := by
      rw [gValue, binary32_layout.abs_value, ← binary32_threshold]
      exact FloatFormat.magnitudeValue_lt_threshold (FloatFormat.isFinite_iff.1 finite)
    have distance := (nearest gFinite below).nearest p.toNat fits finite
    rw [gValue, sub_self, abs_zero, abs_nonpos_iff, sub_eq_zero] at distance
    have same : r = p.toNat :=
      binary32_layout.eq_of_sign_of_value rFits fits (rSign.trans gSign) distance
    exact ⟨t, _, by rw [same, BitVec.ofNat_toNat, BitVec.setWidth_eq], answer⟩
  · have gInf := gInf infinite
    obtain ⟨r, answer, rFits, rSign, -, overflow⟩ := down (FloatFormat.isNaN_of_isInf gInf)
    have magnitude := FloatFormat.isInf_iff.1 (overflow (.inl gInf))
    have same : r = p.toNat :=
      binary32_layout.eq_of_sign_of_magnitude rFits fits (rSign.trans gSign)
        (magnitude.trans (FloatFormat.isInf_iff.1 infinite).symm)
    exact ⟨t, _, by rw [same, BitVec.ofNat_toNat, BitVec.setWidth_eq], answer⟩

/-- The ten numeric kinds by their families. -/
theorem numericKinds_cases {k : Kind} {n : Nat} (numeric : (k, n) ∈ numericKinds) :
    (k, 8 * n) ∈ unsignedKinds ∨ (k, 8 * n) ∈ signedKinds ∨ (k = .float32 ∧ n = 4) ∨
      k = .float64 := by
  simp only [numericKinds, List.mem_cons, Prod.mk.injEq, List.not_mem_nil, or_false] at numeric
  rcases numeric with ⟨rfl, rfl⟩ | ⟨rfl, rfl⟩ | ⟨rfl, rfl⟩ | ⟨rfl, rfl⟩ | ⟨rfl, rfl⟩ | ⟨rfl, rfl⟩ |
    ⟨rfl, rfl⟩ | ⟨rfl, rfl⟩ | ⟨rfl, rfl⟩ | ⟨rfl, rfl⟩ <;> simp [unsignedKinds, signedKinds]

theorem RoundTrips.imp {s : State} {k : Kind} {p : Word} {good better : Word → Prop}
    (trips : RoundTrips s k p good) (implies : ∀ r, good r → better r) :
    RoundTrips s k p better := by
  obtain ⟨t, u, up, down, status, kind, result⟩ := trips
  exact ⟨t, u, up, down, status, kind, implies _ result⟩

/-- Settles O54: by the families of kinds, and for `Float32` by whether the operand is a NaN. -/
theorem upcastThenDowncastIsIdentity : Obligations.UpcastThenDowncastIsIdentity := by
  intro s k n p numeric fits
  change RoundTrips s k p fun r =>
    (¬ (k = .float32 ∧ binary32.isNaN p.toNat = true) → r = p) ∧
      (k = .float32 ∧ binary32.isNaN p.toNat = true → binary32.isNaN r.toNat = true)
  by_cases nan : k = .float32 ∧ binary32.isNaN p.toNat = true
  · obtain ⟨rfl, isNaN⟩ := nan
    obtain rfl : n = 4 := by simpa [numericKinds] using numeric
    refine (roundTrips_float32_nan s fits isNaN).imp fun r result => ?_
    exact ⟨fun notNaN => absurd ⟨rfl, isNaN⟩ notNaN, fun _ => result⟩
  · have trips : RoundTrips s k p (· = p) := by
      rcases numericKinds_cases numeric with unsigned | signed | ⟨rfl, rfl⟩ | rfl
      · exact roundTrips_unsigned s unsigned fits
      · exact roundTrips_signed s signed fits
      · exact roundTrips_float32 s fits (Bool.eq_false_iff.2 fun isNaN => nan ⟨rfl, isNaN⟩)
      · exact roundTrips_float64 s p
    exact trips.imp fun r result => ⟨fun _ => result, fun isNaN => absurd isNaN nan⟩

end Sys2Proof.Machine

/-! ### The thread: `Construct`, `Step`, `Run` and `RunFor` (43_thread.md) -/

namespace Sys2Proof.Machine

/-! ### The commands as loops of `Step`s -/

theorem exec_step_eq_finish (s : State) : exec .step s = StepResult.finish s.stepOnce := rfl

theorem exec_run_eq_finish (s : State) :
    exec .run s = StepResult.finish (State.stepUpTo s.runBound s) := rfl

theorem exec_runFor_eq_finish (n : Word) (s : State) :
    exec (.runFor n) s = StepResult.finish (State.stepUpTo n.toInt.toNat s) := rfl

/-- An opcode row as an instruction is the dispatch arm with its response (log 25). -/
theorem exec_toInstr_eq_finish (o : Opcode) (s : State) :
    exec o.toInstr s = StepResult.finish (dispatchOpcode o s) := by
  cases o <;> rfl

/-! ### `Construct` (R240) -/

/-- The buffer a `Construct` binds reads as the sequence given, and as nothing past it. -/
theorem State.readByte_constructed {s : State} {buffer : List Byte} {pc0 ref : Word}
    (short : buffer.length ≤ maxBufferLength) (i : Nat) :
    (s.constructed buffer pc0 ref).readByte i = buffer[i]? := by
  have length := State.constructed_length (s := s) (pc0 := pc0) (ref := ref) short
  rcases lt_or_ge i buffer.length with inside | past
  · rw [State.readByte_some (by omega), State.constructed_buf, Int.toNat_natCast,
      Memory.byteAt_ofBytes, List.getD_eq_getElem _ _ inside, List.getElem?_eq_getElem inside]
  · rw [State.readByte_none (by omega), List.getElem?_eq_none past]

/-- Settles O9: the next state is the constructed one, whose buffer is the sequence laid out. -/
theorem constructReplacesTheThread : Obligations.ConstructReplacesTheThread := by
  intro s buffer pc0 ref
  refine ⟨fun short => ?_, fun long => if_neg long.not_ge⟩
  refine ⟨s.constructed buffer pc0 ref, exec_construct_of_short pc0 ref s short, rfl,
    State.readByte_constructed short, fun a negative => ?_⟩
  exact State.readByte_none (by omega)

/-! ### `Step` (R242 to R244) -/

theorem decodeCommand_of_stepCode {c : CommandRecord} (code : c.cmd = 0x38) :
    decodeCommand c = .ok .step := by
  simp [decodeCommand, code]

/-- The index a cursor that is not negative stands for. -/
theorem toNat_toInt_of_nonneg {pc : Word} (low : 0 ≤ pc.toInt) : pc.toInt.toNat = pc.toNat := by
  rw [toInt_eq_toNat_of_nonneg low, Int.toNat_natCast]

/-- In range `Step` is the instruction of the opcode byte at `PC`, run past that byte. -/
theorem exec_step_inRange {s : State} (low : 0 ≤ s.pc.toInt) (high : s.pc.toInt < s.length) :
    exec .step s = exec (decodeOpcode (s.buf.byteAt s.pc.toNat)).toInstr (s.setPc (s.pc + 1)) := by
  rw [exec_step_eq_finish, exec_toInstr_eq_finish, State.stepOnce, State.readByte_some ⟨low, high⟩,
    toNat_toInt_of_nonneg low]

/-- Settles O2: the issued command is `Step`, which the input taken leaves in range. -/
theorem stepRunsOpcodeAtPc : Obligations.StepRunsOpcodeAtPc := by
  intro s c rest port code low high
  calc step s = exec .step { s with port := rest } :=
        stepRunsIssuedCommand s c rest .step port (decodeCommand_of_stepCode code)
    _ = _ := exec_step_inRange (s := { s with port := rest }) low high

/-- Settles O56: `PC` is in range or not, and in range the byte at `PC` decides. -/
theorem stepOutcomes : Obligations.StepOutcomes := by
  intro s
  rw [exec_step_eq_finish]
  by_cases inside : 0 ≤ s.pc.toInt ∧ s.pc.toInt < s.length
  · have past : s.pc + 1 = BitVec.ofInt 64 (s.pc.toInt + 1) := add_ofNat_eq_ofInt s.pc 1
    rw [if_neg (by omega), State.stepOnce_inRange inside, toNat_toInt_of_nonneg inside.1, past]
    split
    · rw [StepResult.finish_ok]
    · rw [StepResult.finish_error]
  · rw [if_pos (by omega), State.stepOnce_outOfRange inside, StepResult.finish_error]

/-! ### `Step`s in sequence -/

theorem State.pcInRange_of_inside {s : State}
    (inside : 0 ≤ s.pc.toInt ∧ s.pc.toInt < s.length) : s.pcInRange :=
  ⟨inside.1, inside.2.le⟩

theorem State.stepUpTo_succ_of_ok {s t : State} (n : Nat) (ok : s.stepOnce = (t, none)) :
    State.stepUpTo (n + 1) s = State.stepUpTo n t := by
  rw [State.stepUpTo, ok]

theorem State.stepUpTo_succ_of_error {s t : State} {e : ErrorKind} (n : Nat)
    (error : s.stepOnce = (t, some e)) : State.stepUpTo (n + 1) s = (t, some e) := by
  rw [State.stepUpTo, error]

/-- Out of range the first of the `Step`s ends the sequence. -/
theorem State.stepUpTo_outOfRange {s : State} {n : Nat} (positive : 0 < n)
    (outside : ¬ (0 ≤ s.pc.toInt ∧ s.pc.toInt < s.length)) :
    State.stepUpTo n s = (s, some .bytecodeOverflow) := by
  obtain ⟨n, rfl⟩ := Nat.exists_eq_succ_of_ne_zero positive.ne'
  exact State.stepUpTo_succ_of_error n (State.stepOnce_outOfRange outside)

/-- A thread whose `PC` has the value of an index has that index at `PC`. -/
theorem State.setPc_of_index {s : State} {p : Nat} (index : s.pc.toInt = p) :
    s.setPc (BitVec.ofNat 64 p) = s := by
  rw [← BitVec.ofInt_natCast, ← index, BitVec.ofInt_toInt, State.setPc_self]

/-- A `Step` at an index of the buffer leaves `PC` at the next one. -/
theorem State.stepOnce_atIndex {s : State} {p : Nat} (legal : s.length ≤ maxBufferLength)
    (inside : p < s.length) :
    (s.setPc (BitVec.ofNat 64 p)).stepOnce = (s.setPc (BitVec.ofNat 64 (p + 1)),
      if s.buf.byteAt p = 0 then none else some .operationUndefined) := by
  have index : (BitVec.ofNat 64 p).toInt = p := toInt_ofNat_of_legal (inside.le.trans legal)
  have past : BitVec.ofNat 64 p + 1 = BitVec.ofNat 64 (p + 1) := (BitVec.ofNat_add p 1).symm
  rw [State.stepOnce_inRange (by rw [State.setPc_pc, State.setPc_length, index]; omega),
    State.setPc_pc, State.setPc_setPc, State.setPc_buf, index, Int.toNat_natCast, past]

theorem State.ofNat_length (s : State) : BitVec.ofNat 64 s.length = s.len := by
  rw [State.length, BitVec.ofNat_toNat, BitVec.setWidth_eq]

/-- A `Step` at `L` is out of range. -/
theorem State.stepOnce_atLength {s : State} (legal : s.length ≤ maxBufferLength) :
    (s.setPc (BitVec.ofNat 64 s.length)).stepOnce =
      (s.setPc (BitVec.ofNat 64 s.length), some .bytecodeOverflow) := by
  have index : (BitVec.ofNat 64 s.length).toInt = s.length := toInt_ofNat_of_legal legal
  exact State.stepOnce_outOfRange (by rw [State.setPc_pc, State.setPc_length, index]; omega)

/-- `z` bytes of the buffer from index `p` on are 0x00, and the one after them, if the buffer has
it, is not: the `z` of 43_thread.md R247. -/
structure State.ZeroRun (s : State) (p z : Nat) : Prop where
  within : p + z ≤ s.length
  zeros : ∀ i, p ≤ i → i < p + z → s.buf.byteAt i = 0
  ended : p + z < s.length → s.buf.byteAt (p + z) ≠ 0

theorem State.ZeroRun.tail {s : State} {p z : Nat} (zeroRun : s.ZeroRun p (z + 1)) :
    s.ZeroRun (p + 1) z := by
  obtain ⟨within, zeros, ended⟩ := zeroRun
  have sameEnd : p + 1 + z = p + (z + 1) := by omega
  constructor
  · rwa [sameEnd]
  · exact fun i low high => zeros i (by omega) (by omega)
  · rwa [sameEnd]

theorem State.ZeroRun.cons {s : State} {p z : Nat} (tail : s.ZeroRun (p + 1) z)
    (zero : s.buf.byteAt p = 0) : s.ZeroRun p (z + 1) := by
  obtain ⟨within, zeros, ended⟩ := tail
  have sameEnd : p + 1 + z = p + (z + 1) := by omega
  rw [sameEnd] at within zeros ended
  refine ⟨within, fun i low high => ?_, ended⟩
  rcases low.eq_or_lt with rfl | past
  · exact zero
  · exact zeros i past high

/-- From every index up to `L` on there is such a run: up to the first byte that is not 0x00, or to
the end of the buffer. -/
theorem State.exists_zeroRun {s : State} {p : Nat} (bound : p ≤ s.length) :
    ∃ z, s.ZeroRun p z := by
  induction distance : s.length - p generalizing p with
  | zero => exact ⟨0, bound, fun i low high => by omega, fun inside => by omega⟩
  | succ d ih =>
    by_cases zero : s.buf.byteAt p = 0
    · obtain ⟨z, tail⟩ := ih (p := p + 1) (by omega) (by omega)
      exact ⟨z + 1, tail.cons zero⟩
    · exact ⟨0, bound, fun i low high => by omega, fun _ => zero⟩

/-- The sequence in closed form: the budget ends it inside the run of 0x00 bytes, or else what
stands after the run does, the end of the buffer or a byte without a handler. -/
theorem State.stepUpTo_of_zeroRun {s : State} (legal : s.length ≤ maxBufferLength) {p z : Nat}
    (zeroRun : s.ZeroRun p z) (n : Nat) :
    State.stepUpTo n (s.setPc (BitVec.ofNat 64 p)) =
      if n ≤ z then (s.setPc (BitVec.ofNat 64 (p + n)), none)
      else if p + z = s.length then (s.setPc s.len, some .bytecodeOverflow)
      else (s.setPc (BitVec.ofNat 64 (p + z + 1)), some .operationUndefined) := by
  induction n generalizing p z with
  | zero => rw [if_pos (Nat.zero_le z)]; rfl
  | succ n ih =>
    cases z with
    | zero =>
      rw [if_neg (by omega)]
      split
      case isTrue atEnd =>
        obtain rfl : p = s.length := atEnd
        rw [State.stepUpTo_succ_of_error n (State.stepOnce_atLength legal), State.ofNat_length]
      case isFalse notAtEnd =>
        have inside : p < s.length := zeroRun.within.lt_of_ne notAtEnd
        have once := State.stepOnce_atIndex legal inside
        have bad : s.buf.byteAt p ≠ 0 := zeroRun.ended inside
        rw [if_neg bad] at once
        exact State.stepUpTo_succ_of_error n once
    | succ z =>
      have within := zeroRun.within
      have once := State.stepOnce_atIndex legal (p := p) (by omega)
      rw [if_pos (zeroRun.zeros p le_rfl (by omega))] at once
      rw [State.stepUpTo_succ_of_ok n once, ih zeroRun.tail]
      simp only [Nat.add_le_add_iff_right, Nat.add_right_comm p 1, Nat.add_assoc]

/-! ### `Run` (R246) -/

/-- The `L - PC + 1` `Step`s of `Run` are enough to end it. -/
theorem exec_run_of_zeroRun {s : State} (legal : s.length ≤ maxBufferLength) {p z : Nat}
    (index : s.pc.toInt = p) (zeroRun : s.ZeroRun p z) :
    exec .run s = .next
      (if p + z = s.length then (s.setPc s.len).raise .bytecodeOverflow
      else (s.setPc (BitVec.ofNat 64 (p + z + 1))).raise .operationUndefined) := by
  have within := zeroRun.within
  have enough : ¬ s.runBound ≤ z := by
    unfold State.runBound
    omega
  have ends := State.stepUpTo_of_zeroRun legal zeroRun s.runBound
  rw [State.setPc_of_index index, if_neg enough] at ends
  rw [exec_run_eq_finish, ends]
  split
  · rw [StepResult.finish_error]
  · rw [StepResult.finish_error]

theorem exec_run_outOfRange {s : State} (outside : ¬ (0 ≤ s.pc.toInt ∧ s.pc.toInt < s.length)) :
    exec .run s = .next (s.raise .bytecodeOverflow) := by
  have positive : 0 < s.runBound := Nat.succ_pos _
  rw [exec_run_eq_finish, State.stepUpTo_outOfRange positive outside, StepResult.finish_error]

/-- Settles O58: the first byte that is not 0x00 ends the run of 0x00 bytes, and without one the end
of the buffer does. -/
theorem runClosedForm : Obligations.RunClosedForm := by
  intro s legal
  refine ⟨fun outside => exec_run_outOfRange (by omega), ?_, ?_⟩
  · intro p j index low inside bad zeros
    obtain ⟨z, rfl⟩ := Nat.exists_eq_add_of_le low
    rw [exec_run_of_zeroRun legal index ⟨inside.le, zeros, fun _ => bad⟩, if_neg inside.ne]
  · intro p index inside zeros
    obtain ⟨z, length⟩ := Nat.exists_eq_add_of_le inside.le
    rw [length] at zeros
    rw [exec_run_of_zeroRun legal index ⟨length.ge, zeros, fun more => by omega⟩,
      if_pos length.symm]

/-- Settles O59: from outside `0..L` a run never starts; from inside the bytes after the 0x00 bytes
say how it ends. -/
theorem runAlwaysEnds : Obligations.RunAlwaysEnds := by
  intro s legal
  by_cases range : s.pcInRange
  · obtain ⟨low, high⟩ := range
    obtain ⟨p, index⟩ := Int.eq_ofNat_of_zero_le low
    obtain ⟨z, zeroRun⟩ := State.exists_zeroRun (s := s) (p := p) (by omega)
    refine ⟨_, exec_run_of_zeroRun legal index zeroRun, ?_⟩
    split
    · have atEnd : s.len.toInt = s.length := by
        rw [← s.ofNat_length]
        exact toInt_ofNat_of_legal legal
      exact .inl ⟨rfl, atEnd⟩
    · exact .inr (.inl rfl)
  · have outside := mt State.pcInRange_of_inside range
    exact ⟨_, exec_run_outOfRange outside, .inr (.inr ⟨rfl, range⟩)⟩

/-! ### `RunFor` (R247) -/

/-- Settles O60: the budget is the number of `Step`s, so the closed form is that of `n` of them. -/
theorem runForClosedForm : Obligations.RunForClosedForm := by
  intro s n legal
  refine ⟨fun noBudget => ?_, fun positive range => ?_, ?_⟩
  · rw [exec_runFor_eq_finish, Int.toNat_of_nonpos noBudget, State.stepUpTo, StepResult.finish_ok]
  · have outside := mt State.pcInRange_of_inside range
    rw [exec_runFor_eq_finish, State.stepUpTo_outOfRange (by omega) outside,
      StepResult.finish_error]
  · intro p z positive index within zeros ended
    obtain ⟨k, budget⟩ := Int.eq_ofNat_of_zero_le positive.le
    have ends := State.stepUpTo_of_zeroRun legal ⟨within, zeros, ended⟩ k
    rw [State.setPc_of_index index] at ends
    rw [exec_runFor_eq_finish, budget, Int.toNat_natCast, ends, ← Int.natCast_add,
      BitVec.ofInt_natCast]
    simp only [Int.ofNat_le]
    split
    · rw [StepResult.finish_ok]
    split
    · rw [StepResult.finish_error]
    · rw [StepResult.finish_error]

end Sys2Proof.Machine

/-! ### The opcode arms and the named opcodes (44_opcodes.md) -/

namespace Sys2Proof.Machine

/-! ### The arms (R270, R271) -/

/-- What an opcode row answers: the state is kept, and only `NoOp` succeeds. -/
theorem exec_toInstr_eq (o : Opcode) (s : State) :
    exec o.toInstr s =
      .next (if o = .noOp then s.respond okResponse else s.raise .operationUndefined) := by
  rw [exec_toInstr_eq_finish, dispatchOpcode_eq]
  split
  · rw [StepResult.finish_ok]
  · rw [StepResult.finish_error]

/-- Settles O55: the answer of an opcode row asks only whether the row is `NoOp`. -/
theorem opcodeArms : Obligations.OpcodeArms := by
  refine fun s => ⟨?_, fun o undefined => ?_⟩
  · exact (exec_toInstr_eq .noOp s).trans (by rw [if_pos rfl])
  · rw [exec_toInstr_eq, if_neg undefined]

/-! ### The named opcodes (R272) -/

/-- The identifier byte of a named opcode is in `1..255`. -/
theorem opid_ne_zero (o : NamedOpcode) : opid o ≠ 0 := by
  have bound := (Config.opidPred o).isLt
  unfold opid
  bv_omega

theorem decodeOpcode_opid_ne_noOp (o : NamedOpcode) : decodeOpcode (opid o) ≠ .noOp :=
  mt (decodeOpcode_eq_noOp (opid o)).mp (opid_ne_zero o)

/-- Settles O57: the byte at `PC` selects an arm other than `NoOp`'s, entered past that byte. -/
theorem namedOpcodesAreUndefined : Obligations.NamedOpcodesAreUndefined := by
  intro s o low high named
  have ⟨_, undefinedArm⟩ := opcodeArms (s.setPc (s.pc + 1))
  rw [exec_step_inRange low high, named]
  exact undefinedArm _ (decodeOpcode_opid_ne_noOp o)

end Sys2Proof.Machine

/-! ### The exceptions: an error is not latched (60_exceptions.md R310) -/

namespace Sys2Proof.Machine

/-- A meaning that does not read the response before it: whatever that response was, the outcome is
the same, its own response included. -/
def IgnoresResponse (f : State → Result) : Prop :=
  ∀ (s : State) (r : Response), f (s.respond r) = f s

/-! ### Fetches: the bounds and the bytes are those of the buffer -/

theorem State.inBounds_respond (s : State) (r : Response) (addr : Int) (n : Nat) :
    (s.respond r).inBounds addr n = s.inBounds addr n := rfl

theorem State.fetch_respond (s : State) (r : Response) (cursor : Word) (n : Nat) (short : Result)
    (use : Nat → Result) : (s.respond r).fetch cursor n short use = s.fetch cursor n short use := by
  by_cases bounds : s.inBounds cursor.toInt n = true
  · rw [State.fetch_inBounds short use bounds]
    exact State.fetch_inBounds short use bounds
  · rw [State.fetch_short short use bounds]
    exact State.fetch_short short use bounds

theorem fetchUnsignedAt_ignoresResponse (pc : Word) (k : Nat) :
    IgnoresResponse fun s => s.fetchUnsignedAt pc k :=
  fun s r => s.fetch_respond r pc k _ _

theorem fetchAtPc_ignoresResponse (k : Nat) (deliver : Nat → Word) :
    IgnoresResponse fun s => s.fetchAtPc k deliver :=
  fun s r => s.fetch_respond r s.pc k _ _

theorem execFetchN_ignoresResponse (pc count : Word) : IgnoresResponse (execFetchN pc count) := by
  intro s r
  unfold execFetchN
  rw [State.inBounds_respond]
  split_ifs
  · rfl
  · rfl
  · rfl
  · rfl
  · exact s.fetch_respond r pc count.toNat _ _

theorem execFetchSigned_ignoresResponse (count : Word) :
    IgnoresResponse (execFetchSigned count) := by
  intro s r
  obtain ⟨k, deliver, routed⟩ := fetchSignedOfWidth_eq_fetchAtPc count.toNat
  have fetched := fetchAtPc_ignoresResponse k deliver s r
  simp only [execFetchSigned, routed, fetched, State.respond_raise]

theorem execFetchUnsigned_ignoresResponse (count : Word) :
    IgnoresResponse (execFetchUnsigned count) := by
  intro s r
  have fetched := fetchAtPc_ignoresResponse count.toNat (BitVec.ofNat 64) s r
  simp only [execFetchUnsigned, fetched, State.respond_raise]

/-! ### The sink: the answer taken is the environment's -/

theorem State.takeSinkAnswer_respond (s : State) (r : Response) :
    (s.respond r).takeSinkAnswer = s.takeSinkAnswer.respond r := by
  unfold State.takeSinkAnswer
  rw [State.respond_sinkAnswers]
  split
  · rfl
  · rfl

theorem State.sinkAnswer_respond (s : State) (r : Response) :
    (s.respond r).sinkAnswer = s.sinkAnswer := rfl

theorem State.sinkTakes_respond (s : State) (r : Response) (n : Nat) :
    (s.respond r).sinkTakes n = s.sinkTakes n := rfl

theorem State.sinkWrite_respond (s : State) (r : Response) (n : Nat) (value : Word) :
    (s.respond r).sinkWrite n value = s.sinkWrite n value := by
  simp [State.sinkWrite, State.takeSinkAnswer_respond, State.sinkAnswer_respond,
    State.sinkTakes_respond]

theorem sinkWrite_ignoresResponse (n : Nat) (value : Word) :
    IgnoresResponse fun s => .next (s.sinkWrite n value) :=
  fun s r => congrArg Host.Outcome.next (s.sinkWrite_respond r n value)

/-! ### The conversions -/

/-- A conversion passes the response on and computes the same pattern. -/
theorem FloatFormat.convert_respond (src dst : FloatFormat) (bits : Nat) (s : State)
    (r : Response) :
    src.convert dst bits (s.respond r) =
      ((src.convert dst bits s).1.respond r, (src.convert dst bits s).2) := by
  unfold FloatFormat.convert
  split
  · rfl
  split
  · rfl
  · rfl

theorem convert_ignoresResponse (src dst : FloatFormat) (bits : Nat) (k : Kind) :
    IgnoresResponse fun s =>
      (src.convert dst bits s).1.returnValue k (src.convert dst bits s).2 := by
  intro s r
  simp only [FloatFormat.convert_respond, State.returnValue_eq, State.respond_respond]

theorem execUpcast_ignoresResponse (source : KindTag) (p : Word) :
    IgnoresResponse (execUpcast source p) := by
  intro s r
  cases source with
  | unassigned n => rfl
  | kind k =>
    cases k
    case float32 => exact convert_ignoresResponse _ _ _ _ s r
    all_goals rfl

theorem downcastToInteger_ignoresResponse (c : CanonicalKind) (p : Word) (k : Kind) :
    IgnoresResponse (downcastToInteger c p k) := by
  intro s r
  cases c <;> rfl

theorem downcastToFloat_ignoresResponse (c : CanonicalKind) (p : Word) (k : Kind) :
    IgnoresResponse (downcastToFloat c p k) := by
  intro s r
  cases c with
  | uint64 | int64 => rfl
  | float64 => exact convert_ignoresResponse _ _ _ _ s r

theorem downcastStackValue_ignoresResponse (c : CanonicalKind) (p : Word) (target : KindTag) :
    IgnoresResponse (downcastStackValue c p target) := by
  intro s r
  simp only [downcastStackValue, State.returnValue_eq, State.respond_respond, State.respond_raise,
    downcastToInteger_ignoresResponse _ _ _ s r, downcastToFloat_ignoresResponse _ _ _ s r]

theorem execDowncast_ignoresResponse (source : KindTag) (p : Word) (target : KindTag) :
    IgnoresResponse (execDowncast source p target) := by
  intro s r
  simp only [execDowncast, downcastStackValue_ignoresResponse _ _ _ s r]

/-! ### The thread: `Step`s carry the response along, and the answer replaces it -/

/-- A `Step`'s answer with another response in its state and the same error. -/
def StepResult.respond (a : StepResult) (r : Response) : StepResult := (a.1.respond r, a.2)

theorem StepResult.finish_respond (a : StepResult) (r : Response) :
    StepResult.finish (a.respond r) = StepResult.finish a := by
  obtain ⟨t, _ | e⟩ := a
  · rfl
  · rfl

theorem State.stepOnce_respond (s : State) (r : Response) :
    (s.respond r).stepOnce = StepResult.respond s.stepOnce r := by
  by_cases inside : 0 ≤ s.pc.toInt ∧ s.pc.toInt < s.length
  · rw [State.stepOnce_inRange inside]
    exact State.stepOnce_inRange (s := s.respond r) inside
  · rw [State.stepOnce_outOfRange inside]
    exact State.stepOnce_outOfRange (s := s.respond r) inside

theorem State.stepUpTo_respond (n : Nat) (s : State) (r : Response) :
    State.stepUpTo n (s.respond r) = (State.stepUpTo n s).respond r := by
  induction n generalizing s with
  | zero => rfl
  | succ n ih =>
    rw [State.stepUpTo, State.stepUpTo, State.stepOnce_respond]
    obtain ⟨t, _ | e⟩ := s.stepOnce
    · exact ih t
    · rfl

theorem execStep_ignoresResponse : IgnoresResponse execStep := by
  intro s r
  rw [execStep, State.stepOnce_respond, StepResult.finish_respond, execStep]

theorem stepUpTo_ignoresResponse (n : Nat) :
    IgnoresResponse fun s => StepResult.finish (State.stepUpTo n s) := by
  intro s r
  simp only [State.stepUpTo_respond, StepResult.finish_respond]

/-! ### Every command (R310) -/

/-- Every command, by the shared operation it is made of; the others only write the response. -/
theorem exec_ignoresResponse (i : Instr) : IgnoresResponse (exec i) := by
  cases i
  case fetchU8 pc | fetchU16 pc | fetchU24 pc | fetchU32 pc | fetchU40 pc | fetchU48 pc
      | fetchU56 pc | fetchU64 pc =>
    exact fetchUnsignedAt_ignoresResponse pc _
  case fetchN pc count => exact execFetchN_ignoresResponse pc count
  case fetchI8 | fetchI16 | fetchI24 | fetchI32 | fetchI40 | fetchI48 | fetchI56 | fetchI64 =>
    exact fetchAtPc_ignoresResponse _ _
  case fetchSigned count => exact execFetchSigned_ignoresResponse count
  case fetchUnsigned count => exact execFetchUnsigned_ignoresResponse count
  case writeU8 v | writeU16 v | writeU24 v | writeU32 v | writeU40 v | writeU48 v | writeU56 v
      | writeU64 v | writeVarInt v =>
    exact sinkWrite_ignoresResponse _ v
  case upcast source p => exact execUpcast_ignoresResponse source p
  case downcast source p target => exact execDowncast_ignoresResponse source p target
  case step => exact execStep_ignoresResponse
  case run => exact fun s r => stepUpTo_ignoresResponse s.runBound s r
  case runFor n => exact stepUpTo_ignoresResponse n.toInt.toNat
  all_goals exact fun _ _ => rfl

/-- Settles O18: whatever response stands before it, error or success, a command overwrites it and
reads it nowhere. -/
theorem errorsAreNotSticky : Obligations.ErrorsAreNotSticky := exec_ignoresResponse

end Sys2Proof.Machine

/-! ### Reset (70_reset_and_hazards.md) -/

namespace Sys2Proof.Machine

/-- A reset at the port is taken from it and runs no command: the step is the hardware reset of the
state whose port holds the later inputs (R340, log 1). -/
theorem step_of_reset {s : State} {rest : List Input} (port : s.port = .reset :: rest) :
    step s = .next { s with port := rest }.hardReset := by
  rw [← State.takeInput_of_port port, step, port]

/-- Settles O7: the reset lays out the empty thread and copies the sink, the sink's answers and the
port, from which only the reset itself was taken. -/
theorem resetGivesTheEmptyThread : Obligations.ResetGivesTheEmptyThread := by
  intro s rest port
  refine ⟨_, step_of_reset port, ?pc, ?stack, ?len, ?buf, ?sink, ?sinkAnswers, ?port⟩
  case pc => exact State.hardReset_pc _
  case stack => exact State.hardReset_stack _
  case len => exact State.hardReset_len _
  case buf => exact State.hardReset_buf _
  case sink => exact State.hardReset_sink { s with port := rest }
  case sinkAnswers => exact State.hardReset_sinkAnswers { s with port := rest }
  case port => exact State.hardReset_port { s with port := rest }

end Sys2Proof.Machine
